-- ==== Sys2Proof/Word.lean ====
section
/-! DEFINITION. The bit-vector types of the block (00_scope.md R14, R16). -/

namespace Sys2Proof

/-- A byte of memory, a general register or a timer (R14). -/
abbrev Byte := BitVec 8

/-- An opcode, the index register, the program counter or a stack entry (R14). -/
abbrev Word := BitVec 16

/-- The 12-bit address field nnn of an opcode (30_encoding.md R61). -/
abbrev Addr12 := BitVec 12

/-- The index of one of the sixteen general registers (10_state.md R21). -/
abbrev RegIx := Fin 16

/-- A key, 0x0..0xF: the 16-value enumeration of 60_exceptions.md R167. -/
abbrev KeyIx := Fin 16

end Sys2Proof
end

