-- ==== Sys2Proof/Config.lean ====
section
/-! DEFINITION. What is fixed for the block: the named constants of 00_scope.md R6 to R12, the default value of
the FONT parameter, and what the spec leaves open: the random bytes of R13 and the host's schedule (60_exceptions.md
R170, 92_eei_decisions.md D29). -/

namespace Sys2Proof

/-- R6. -/
abbrev Config.memSize : Nat := 4096
/-- R7. -/
abbrev Config.progBase : Nat := 0x200
/-- R8. -/
abbrev Config.stackDepth : Nat := 16
/-- R9. -/
abbrev Config.screenW : Nat := 64
/-- R9. -/
abbrev Config.screenH : Nat := 32
/-- R10. -/
abbrev Config.numKeys : Nat := 16
/-- R11. -/
abbrev Config.glyphBytes : Nat := 5
/-- R11: the font fills addresses 0x000..0x04F. -/
abbrev Config.fontSize : Nat := 80
/-- R32: 4096 - 0x200. -/
abbrev Config.maxImage : Nat := 3584

/-- The Font Table: 80 bytes, glyph d at 5·d .. 5·d+4, top row first (R11, R12). -/
abbrev Font := Vector Byte Config.fontSize

/-- PRESUMED (log 3), unsafe: the default FONT the spec offers (93_implementation_defined.md G3). State.reset holds
it; every statement about the machine holds for every font. -/
def Config.defaultFont : Font :=
  #v[0xF0, 0x90, 0x90, 0x90, 0xF0,  0x20, 0x60, 0x20, 0x20, 0x70,
     0xF0, 0x10, 0xF0, 0x80, 0xF0,  0xF0, 0x10, 0xF0, 0x10, 0xF0,
     0x90, 0x90, 0xF0, 0x10, 0x10,  0xF0, 0x80, 0xF0, 0x10, 0xF0,
     0xF0, 0x80, 0xF0, 0x90, 0xF0,  0xF0, 0x10, 0x20, 0x40, 0x40,
     0xF0, 0x90, 0xF0, 0x90, 0xF0,  0xF0, 0x90, 0xF0, 0x10, 0xF0,
     0xF0, 0x90, 0xF0, 0x90, 0x90,  0xE0, 0x90, 0xE0, 0x90, 0xE0,
     0xF0, 0x80, 0x80, 0x80, 0xF0,  0xE0, 0x90, 0x90, 0x90, 0xE0,
     0xF0, 0x80, 0xF0, 0x80, 0xF0,  0xF0, 0x80, 0xF0, 0x80, 0x80]

/-- The FREE VALUE of the block (log 4), safe: the n-th byte the random source gives (R13: "a free 8-bit input under
no law"). It has no body, so no proof can see what it is. -/
opaque Config.rng : Nat → Byte

/-- The host commands (R5, R174); each is one atomic transaction. -/
inductive Machine.Command where
  | advance
  | stepBack
  | tickTimers
  | press (k : KeyIx)
  | release (k : KeyIx)
  | isDown (k : KeyIx)
  | snapshot
  | load (bytes : List Byte)
  | reset
  | getScreen
  | fetchAt (a : Word)
  | isPaused
  | pauseOrResume
  /-- the register/timer snapshot port (R174) -/
  | readRegisters
  /-- the fault record port (R174) -/
  | readFault
  /-- the pending slot port (R174) -/
  | readPending
  /-- the sound level port (R162) -/
  | readSound
deriving DecidableEq, Repr, Inhabited

/-- The OPEN parameter HostSchedule, free (log 1), safe: the n-th command of an endless sequence the host chooses
(R170: "in any order it chooses"; D29: any infinite sequence). It has no body, so no proof can see what it is. -/
opaque Config.hostCommand : Nat → Machine.Command

end Sys2Proof
end

