-- ==== Sys2Proof/Syntax.lean ====
section
/-! DEFINITION. The operations of the block: one constructor per row of the opcode map (30_encoding.md R65), named
by the map's variant column. -/

namespace Sys2Proof

/-- `Operation` of R64: a closed sum with one constructor per row of R65, plus Unknown. -/
inductive Instr where
  /-- 0000 NOP (R90) -/
  | nop
  /-- 00E0 CLS (R130) -/
  | clearScreen
  /-- 00EE RET (R91) -/
  | ret
  /-- 1nnn JP nnn (R92) -/
  | jump (nnn : Addr12)
  /-- 2nnn CALL nnn (R93) -/
  | call (nnn : Addr12)
  /-- 3xnn SE Vx, nn (R94) -/
  | skipEqImm (x : RegIx) (nn : Byte)
  /-- 4xnn SNE Vx, nn (R95) -/
  | skipNeImm (x : RegIx) (nn : Byte)
  /-- 5xy0 SE Vx, Vy (R96) -/
  | skipEqReg (x y : RegIx)
  /-- 6xnn LD Vx, nn (R100) -/
  | setVxImm (x : RegIx) (nn : Byte)
  /-- 7xnn ADD Vx, nn (R101) -/
  | addVxImm (x : RegIx) (nn : Byte)
  /-- 8xy0 LD Vx, Vy (R102) -/
  | setVxVy (x y : RegIx)
  /-- 8xy1 OR Vx, Vy (R103) -/
  | orVxVy (x y : RegIx)
  /-- 8xy2 AND Vx, Vy (R104) -/
  | andVxVy (x y : RegIx)
  /-- 8xy3 XOR Vx, Vy (R105) -/
  | xorVxVy (x y : RegIx)
  /-- 8xy4 ADD Vx, Vy (R106) -/
  | addVxVy (x y : RegIx)
  /-- 8xy5 SUB Vx, Vy (R107) -/
  | subVxVy (x y : RegIx)
  /-- 8xy6 SHR Vx, Vy (R108) -/
  | rShiftVx (x y : RegIx)
  /-- 8xy7 SUBN Vx, Vy (R109) -/
  | subVyVx (x y : RegIx)
  /-- 8xyE SHL Vx, Vy (R110) -/
  | lShiftVx (x y : RegIx)
  /-- 9xy0 SNE Vx, Vy (R97) -/
  | skipNeReg (x y : RegIx)
  /-- Annn LD I, nnn (R120) -/
  | setIndex (nnn : Addr12)
  /-- Bnnn JP V0, nnn (R98) -/
  | jumpV0 (nnn : Addr12)
  /-- Cxnn RND Vx, nn (R111) -/
  | setVxRnd (x : RegIx) (nn : Byte)
  /-- Dxyn DRW Vx, Vy, n (R131) -/
  | draw (x y : RegIx) (n : Fin 16)
  /-- Ex9E SKP Vx (R140) -/
  | skipKeyDown (x : RegIx)
  /-- ExA1 SKNP Vx (R141) -/
  | skipKeyUp (x : RegIx)
  /-- Fx07 LD Vx, DT (R142) -/
  | getDelay (x : RegIx)
  /-- Fx0A LD Vx, K (R143) -/
  | waitKey (x : RegIx)
  /-- Fx15 LD DT, Vx (R144) -/
  | setDelay (x : RegIx)
  /-- Fx18 LD ST, Vx (R145) -/
  | setSound (x : RegIx)
  /-- Fx1E ADD I, Vx (R121) -/
  | addIndex (x : RegIx)
  /-- Fx29 LD F, Vx (R122) -/
  | fontGlyph (x : RegIx)
  /-- Fx33 LD B, Vx (R123) -/
  | bcd (x : RegIx)
  /-- Fx55 LD [I], Vx (R124) -/
  | storeRegs (x : RegIx)
  /-- Fx65 LD Vx, [I] (R125) -/
  | loadRegs (x : RegIx)
  /-- every other word: Unknown(op) (R64, R82) -/
  | unknown (op : Word)
deriving DecidableEq, Repr

end Sys2Proof
end

