-- ==== Sys2Proof/WellFormed.lean ====
section
/-! DEFINITION. The opcode map as a table (30_encoding.md R65), and which instruction terms are words of the
instruction set: every field's bound is in its type, so the one check is that Unknown carries a word no row takes. -/

namespace Sys2Proof

/-- One row of R65: a word is the row's when its masked bits are the match value. -/
structure OpcodeRow where
  mnemonic : String
  mask : Word
  value : Word
deriving DecidableEq, Repr

/-- R65: "the row whose `(op & mask) == match`". -/
def OpcodeRow.takes (r : OpcodeRow) (op : Word) : Bool := op &&& r.mask == r.value

/-- The rows of families 0 to 7 of R65. -/
def opcodeRowsLow : List OpcodeRow :=
  [⟨"NOP", 0xFFFF, 0x0000⟩, ⟨"CLS", 0xFFFF, 0x00E0⟩, ⟨"RET", 0xFFFF, 0x00EE⟩,
   ⟨"JP_nnn", 0xF000, 0x1000⟩, ⟨"CALL_nnn", 0xF000, 0x2000⟩,
   ⟨"SE_Vx__nn", 0xF000, 0x3000⟩, ⟨"SNE_Vx__nn", 0xF000, 0x4000⟩, ⟨"SE_Vx__Vy", 0xF00F, 0x5000⟩,
   ⟨"LD_Vx__nn", 0xF000, 0x6000⟩, ⟨"ADD_Vx__nn", 0xF000, 0x7000⟩]

/-- The rows of family 8 of R65. -/
def opcodeRowsAlu : List OpcodeRow :=
  [⟨"LD_Vx__Vy", 0xF00F, 0x8000⟩, ⟨"OR_Vx__Vy", 0xF00F, 0x8001⟩, ⟨"AND_Vx__Vy", 0xF00F, 0x8002⟩,
   ⟨"XOR_Vx__Vy", 0xF00F, 0x8003⟩, ⟨"ADD_Vx__Vy", 0xF00F, 0x8004⟩, ⟨"SUB_Vx__Vy", 0xF00F, 0x8005⟩,
   ⟨"SHR_Vx__Vy", 0xF00F, 0x8006⟩, ⟨"SUBN_Vx__Vy", 0xF00F, 0x8007⟩, ⟨"SHL_Vx__Vy", 0xF00F, 0x800E⟩]

/-- The rows of families 9 to F of R65. -/
def opcodeRowsHigh : List OpcodeRow :=
  [⟨"SNE_Vx__Vy", 0xF00F, 0x9000⟩, ⟨"LD_I__nnn", 0xF000, 0xA000⟩, ⟨"JP_V0__nnn", 0xF000, 0xB000⟩,
   ⟨"RND_Vx__nn", 0xF000, 0xC000⟩, ⟨"DRW_Vx__Vy__n", 0xF000, 0xD000⟩,
   ⟨"SKP_Vx", 0xF0FF, 0xE09E⟩, ⟨"SKNP_Vx", 0xF0FF, 0xE0A1⟩,
   ⟨"LD_Vx__DT", 0xF0FF, 0xF007⟩, ⟨"LD_Vx__K", 0xF0FF, 0xF00A⟩, ⟨"LD_DT__Vx", 0xF0FF, 0xF015⟩,
   ⟨"LD_ST__Vx", 0xF0FF, 0xF018⟩, ⟨"ADD_I__Vx", 0xF0FF, 0xF01E⟩, ⟨"LD_F__Vx", 0xF0FF, 0xF029⟩,
   ⟨"LD_B__Vx", 0xF0FF, 0xF033⟩, ⟨"LD__I___Vx", 0xF0FF, 0xF055⟩, ⟨"LD_Vx___I", 0xF0FF, 0xF065⟩]

/-- The 35 recognised rows of R65. -/
def opcodeRows : List OpcodeRow := opcodeRowsLow ++ opcodeRowsAlu ++ opcodeRowsHigh

/-- R65: some row takes the word; a word that no row takes is Unknown. -/
def recognised (op : Word) : Bool := opcodeRows.any (fun r => r.takes op)

/-- Which instruction terms stand for words of the instruction set. -/
def Instr.wf : Instr → Bool
  | .nop | .clearScreen | .ret => true
  | .jump _ | .call _ | .setIndex _ | .jumpV0 _ => true
  | .skipEqImm _ _ | .skipNeImm _ _ | .setVxImm _ _ | .addVxImm _ _ | .setVxRnd _ _ => true
  | .skipEqReg _ _ | .skipNeReg _ _ => true
  | .setVxVy _ _ | .orVxVy _ _ | .andVxVy _ _ | .xorVxVy _ _ => true
  | .addVxVy _ _ | .subVxVy _ _ | .rShiftVx _ _ | .subVyVx _ _ | .lShiftVx _ _ => true
  | .draw _ _ _ => true
  | .skipKeyDown _ | .skipKeyUp _ => true
  | .getDelay _ | .waitKey _ | .setDelay _ | .setSound _ => true
  | .addIndex _ | .fontGlyph _ | .bcd _ | .storeRegs _ | .loadRegs _ => true
  | .unknown op => !recognised op

end Sys2Proof
end

