-- ==== Sys2Proof/Decode.lean ====
section
/-! DEFINITION. The instruction decoder (30_encoding.md R60 to R67), total on every word and on any bytes, and the
encoder, its inverse (R68). -/

namespace Sys2Proof

/-! ## Fields (R61) -/

/-- d1 = op[15:12], the first nibble. -/
def d1Field (op : Word) : BitVec 4 := op.extractLsb' 12 4
/-- x = op[11:8], a register index. -/
def xField (op : Word) : RegIx := (op.extractLsb' 8 4).toFin
/-- y = op[7:4], a register index. -/
def yField (op : Word) : RegIx := (op.extractLsb' 4 4).toFin
/-- n = op[3:0], an unsigned count (R63). -/
def nField (op : Word) : Fin 16 := (op.extractLsb' 0 4).toFin
/-- nn = op[7:0], a byte. -/
def nnField (op : Word) : Byte := op.extractLsb' 0 8
/-- nnn = op[11:0], a 12-bit address. -/
def nnnField (op : Word) : Addr12 := op.extractLsb' 0 12

/-! ## The decoder (R67), family by family -/

/-- Family 0: three exact words, every other 0nnn is Unknown (R70). -/
def decodeZero (op : Word) : Instr :=
  if op = 0x0000 then .nop
  else if op = 0x00E0 then .clearScreen
  else if op = 0x00EE then .ret
  else .unknown op

/-- Family 8: the register-to-register operations, selected by n. -/
def decodeAlu (op : Word) : Instr :=
  match (nField op).val with
  | 0x0 => .setVxVy (xField op) (yField op)
  | 0x1 => .orVxVy (xField op) (yField op)
  | 0x2 => .andVxVy (xField op) (yField op)
  | 0x3 => .xorVxVy (xField op) (yField op)
  | 0x4 => .addVxVy (xField op) (yField op)
  | 0x5 => .subVxVy (xField op) (yField op)
  | 0x6 => .rShiftVx (xField op) (yField op)
  | 0x7 => .subVyVx (xField op) (yField op)
  | 0xE => .lShiftVx (xField op) (yField op)
  | _ => .unknown op

/-- Family E: the key skips, selected by nn. -/
def decodeKey (op : Word) : Instr :=
  if nnField op = 0x9E then .skipKeyDown (xField op)
  else if nnField op = 0xA1 then .skipKeyUp (xField op)
  else .unknown op

/-- Family F: timers, the key wait, and the index and memory operations, selected by nn. -/
def decodeMisc (op : Word) : Instr :=
  if nnField op = 0x07 then .getDelay (xField op)
  else if nnField op = 0x0A then .waitKey (xField op)
  else if nnField op = 0x15 then .setDelay (xField op)
  else if nnField op = 0x18 then .setSound (xField op)
  else if nnField op = 0x1E then .addIndex (xField op)
  else if nnField op = 0x29 then .fontGlyph (xField op)
  else if nnField op = 0x33 then .bcd (xField op)
  else if nnField op = 0x55 then .storeRegs (xField op)
  else if nnField op = 0x65 then .loadRegs (xField op)
  else .unknown op

/-- `decode` of R67: pure and total; an unrecognised word gives Unknown with the raw word. -/
def decode (op : Word) : Instr :=
  match (d1Field op).toNat with
  | 0x0 => decodeZero op
  | 0x1 => .jump (nnnField op)
  | 0x2 => .call (nnnField op)
  | 0x3 => .skipEqImm (xField op) (nnField op)
  | 0x4 => .skipNeImm (xField op) (nnField op)
  | 0x5 => if nField op = 0 then .skipEqReg (xField op) (yField op) else .unknown op
  | 0x6 => .setVxImm (xField op) (nnField op)
  | 0x7 => .addVxImm (xField op) (nnField op)
  | 0x8 => decodeAlu op
  | 0x9 => if nField op = 0 then .skipNeReg (xField op) (yField op) else .unknown op
  | 0xA => .setIndex (nnnField op)
  | 0xB => .jumpV0 (nnnField op)
  | 0xC => .setVxRnd (xField op) (nnField op)
  | 0xD => .draw (xField op) (yField op) (nField op)
  | 0xE => decodeKey op
  | _ => decodeMisc op

/-- Why bytes hold no instruction. -/
inductive DecodeReject where
  /-- fewer than the two bytes every instruction has (R60, R72) -/
  | tooFewBytes
deriving DecidableEq, Repr

/-- The word of two consecutive bytes, the first the high one (20_memory.md R44). -/
def wordOfBytes (hi lo : Byte) : Word := hi ++ lo

/-- The instruction at the head of some bytes, and the bytes after it. -/
def decodeBytes : List Byte → Except DecodeReject (Instr × List Byte)
  | hi :: lo :: rest => .ok (decode (wordOfBytes hi lo), rest)
  | _ => .error .tooFewBytes

/-! ## The encoder (R68) -/

/-- A register index as its 4-bit field. -/
def regBits (x : Fin 16) : BitVec 4 := BitVec.ofFin x

/-- Format XNN of R62. -/
def encodeXNN (d : BitVec 4) (x : RegIx) (nn : Byte) : Word := d ++ regBits x ++ nn
/-- Formats XY and XYN of R62. -/
def encodeXYN (d : BitVec 4) (x y : RegIx) (n : BitVec 4) : Word := d ++ regBits x ++ regBits y ++ n
/-- Format ADDR of R62. -/
def encodeAddr (d : BitVec 4) (nnn : Addr12) : Word := d ++ nnn

/-- The canonical word of each operation: the literal digits of its pattern with its fields inserted (R68). -/
def encode : Instr → Word
  | .nop => 0x0000
  | .clearScreen => 0x00E0
  | .ret => 0x00EE
  | .jump nnn => encodeAddr 0x1 nnn
  | .call nnn => encodeAddr 0x2 nnn
  | .skipEqImm x nn => encodeXNN 0x3 x nn
  | .skipNeImm x nn => encodeXNN 0x4 x nn
  | .skipEqReg x y => encodeXYN 0x5 x y 0x0
  | .setVxImm x nn => encodeXNN 0x6 x nn
  | .addVxImm x nn => encodeXNN 0x7 x nn
  | .setVxVy x y => encodeXYN 0x8 x y 0x0
  | .orVxVy x y => encodeXYN 0x8 x y 0x1
  | .andVxVy x y => encodeXYN 0x8 x y 0x2
  | .xorVxVy x y => encodeXYN 0x8 x y 0x3
  | .addVxVy x y => encodeXYN 0x8 x y 0x4
  | .subVxVy x y => encodeXYN 0x8 x y 0x5
  | .rShiftVx x y => encodeXYN 0x8 x y 0x6
  | .subVyVx x y => encodeXYN 0x8 x y 0x7
  | .lShiftVx x y => encodeXYN 0x8 x y 0xE
  | .skipNeReg x y => encodeXYN 0x9 x y 0x0
  | .setIndex nnn => encodeAddr 0xA nnn
  | .jumpV0 nnn => encodeAddr 0xB nnn
  | .setVxRnd x nn => encodeXNN 0xC x nn
  | .draw x y n => encodeXYN 0xD x y (regBits n)
  | .skipKeyDown x => encodeXNN 0xE x 0x9E
  | .skipKeyUp x => encodeXNN 0xE x 0xA1
  | .getDelay x => encodeXNN 0xF x 0x07
  | .waitKey x => encodeXNN 0xF x 0x0A
  | .setDelay x => encodeXNN 0xF x 0x15
  | .setSound x => encodeXNN 0xF x 0x18
  | .addIndex x => encodeXNN 0xF x 0x1E
  | .fontGlyph x => encodeXNN 0xF x 0x29
  | .bcd x => encodeXNN 0xF x 0x33
  | .storeRegs x => encodeXNN 0xF x 0x55
  | .loadRegs x => encodeXNN 0xF x 0x65
  | .unknown op => op

/-- A word as memory holds it, high byte at the lower address (R44). -/
def bytesOfWord (op : Word) : List Byte := [op.extractLsb' 8 8, op.extractLsb' 0 8]

/-- The instruction's bytes as memory holds them. -/
def encodeBytes (i : Instr) : List Byte := bytesOfWord (encode i)

/-- The row of the opcode map an operation belongs to, by the map's mnemonic; none for Unknown. -/
def Instr.mnemonic? : Instr → Option String
  | .nop => some "NOP" | .clearScreen => some "CLS" | .ret => some "RET"
  | .jump _ => some "JP_nnn" | .call _ => some "CALL_nnn"
  | .skipEqImm _ _ => some "SE_Vx__nn" | .skipNeImm _ _ => some "SNE_Vx__nn"
  | .skipEqReg _ _ => some "SE_Vx__Vy" | .skipNeReg _ _ => some "SNE_Vx__Vy"
  | .setVxImm _ _ => some "LD_Vx__nn" | .addVxImm _ _ => some "ADD_Vx__nn"
  | .setVxVy _ _ => some "LD_Vx__Vy" | .orVxVy _ _ => some "OR_Vx__Vy"
  | .andVxVy _ _ => some "AND_Vx__Vy" | .xorVxVy _ _ => some "XOR_Vx__Vy"
  | .addVxVy _ _ => some "ADD_Vx__Vy" | .subVxVy _ _ => some "SUB_Vx__Vy"
  | .rShiftVx _ _ => some "SHR_Vx__Vy" | .subVyVx _ _ => some "SUBN_Vx__Vy"
  | .lShiftVx _ _ => some "SHL_Vx__Vy"
  | .setIndex _ => some "LD_I__nnn" | .jumpV0 _ => some "JP_V0__nnn"
  | .setVxRnd _ _ => some "RND_Vx__nn" | .draw _ _ _ => some "DRW_Vx__Vy__n"
  | .skipKeyDown _ => some "SKP_Vx" | .skipKeyUp _ => some "SKNP_Vx"
  | .getDelay _ => some "LD_Vx__DT" | .waitKey _ => some "LD_Vx__K"
  | .setDelay _ => some "LD_DT__Vx" | .setSound _ => some "LD_ST__Vx"
  | .addIndex _ => some "ADD_I__Vx" | .fontGlyph _ => some "LD_F__Vx" | .bcd _ => some "LD_B__Vx"
  | .storeRegs _ => some "LD__I___Vx" | .loadRegs _ => some "LD_Vx___I"
  | .unknown _ => none

/-! ## The host's entry -/

/-- The instruction the decoder reads from a word of the opcode table: the word is laid out as memory holds it and
those bytes are decoded; a number that is no word of nbits bits, or more bits than an instruction has, gives none. -/
def decodeTableWord (nbits w : Nat) : Option Instr :=
  if nbits ≤ 16 ∧ w < 2 ^ nbits then
    match decodeBytes (bytesOfWord (BitVec.ofNat 16 w)) with
    | .ok (i, _) => some i
    | .error _ => none
  else none

end Sys2Proof
end

