-- ==== Sys2Proof/Machine/State.lean ====
section
/-! DEFINITION. The state of the block as plain data (10_state.md R20 to R33), the results of the host commands
(00_scope.md R5), the host's schedule, the reasons a step of the MODEL could stop, and the state after construction (70_reset_and_hazards.md
R180). -/

namespace Sys2Proof.Machine

/-- Memory: the bytes that differ from what an unlisted address reads as (FONT in 0x000..0x04F, 0 elsewhere), in
canonical form: addresses strictly rising (Memory.wf in Machine/Ops.lean). -/
abbrev Memory := List Host.Cell

/-- The register file V0..VF (R21). -/
abbrev Regs := Vector Byte 16

/-- The framebuffer, row-major: row r, then column c (R28). -/
abbrev Screen := Vector (Vector Bool Config.screenW) Config.screenH

/-- The fatal conditions (60_exceptions.md R150). -/
inductive FaultKind where
  /-- code 1: fetch with pc + 1 ≥ 4096 -/
  | fetchOutOfRange
  /-- code 2: executing Unknown -/
  | unknownOpcode
  /-- code 3: CALL with 16 entries on the stack -/
  | stackOverflow
  /-- code 4: RET with an empty stack -/
  | stackUnderflow
  /-- code 5: a memory access through I at an address ≥ 4096 -/
  | dataOutOfRange
  /-- code 6: a key number ≥ 16 -/
  | keyOutOfRange
deriving DecidableEq, Repr

/-- The fault record (R151). -/
structure FaultRecord where
  kind : FaultKind
  /-- the faulting instruction's address, or the pc of the failed fetch -/
  addr : Word
  /-- the opcode being executed; none for FetchOutOfRange -/
  op : Option Word
  /-- the info column of R150, a natural number -/
  info : Nat
deriving DecidableEq, Repr

/-- What a host command hands back: results of the read ports, of load and of fetch_at, and the StopSound event. -/
inductive Output where
  /-- the stop-sound event of tick_timers (R161) -/
  | stopSound
  /-- load succeeded (R182) -/
  | loadOk
  /-- load refused an image of that length (R183) -/
  | loadError (len : Nat)
  /-- is_down(k) (R166) -/
  | keyDown (down : Bool)
  /-- snapshot() (R166) -/
  | keySnapshot (keys : Vector Bool Config.numKeys)
  /-- get_screen(): 2048 pixels, row-major (R168) -/
  | pixels (grid : List Bool)
  /-- fetch_at(a) in range (R172) -/
  | operation (i : Instr)
  /-- fetch_at(a) with a + 1 ≥ 4096 (R172) -/
  | fetchAtOutOfRange (a : Word)
  /-- is_paused() (R173) -/
  | pausedFlag (paused : Bool)
  /-- copies of V, I, pc, DT, ST (R174) -/
  | registers (V : Regs) (I pc : Word) (DT ST : Byte)
  /-- the fault record (R174) -/
  | faultRecord (r : Option FaultRecord)
  /-- the pending slot (R174) -/
  | pendingSlot (r : Option RegIx)
  /-- sound_active (R162) -/
  | soundLevel (active : Bool)
deriving DecidableEq, Repr

/-- What the host does once the commands listed in State.schedule are done (log 1). With the list, this is any finite or
infinite sequence of commands (R170, D29). -/
inductive HostTail where
  /-- it issues advance, and nothing else -/
  | advances
  /-- it issues the commands of the free sequence Config.hostCommand, from this position on -/
  | free (pos : Nat)
  /-- it has stopped issuing commands -/
  | ends
deriving DecidableEq, Repr

/-- The state: the thirteen components of R20, the RNG position of R33, the FONT parameter of R12, and the model's own
three fields for the host interface (log 1, log 2). -/
structure State where
  /-- memory (R40) -/
  mem : Memory
  /-- V0..VF (R21) -/
  V : Regs
  /-- the index register (R26) -/
  I : Word
  /-- the program counter (R23) -/
  pc : Word
  /-- return addresses, oldest first (R25) -/
  stack : List Word
  /-- the delay timer (R27) -/
  DT : Byte
  /-- the sound timer (R27) -/
  ST : Byte
  /-- the framebuffer (R28) -/
  screen : Screen
  /-- key states (R29) -/
  keys : Vector Bool Config.numKeys
  /-- the register awaiting a key (R29) -/
  pending : Option RegIx
  /-- the host's pause flag (R30) -/
  paused : Bool
  /-- the fault latch (R31) -/
  fault : Option FaultRecord
  /-- the last image loaded (R32) -/
  image : List Byte
  /-- how many random bytes have been drawn (R33, log 4): the model's counter for the free value Config.rng -/
  rngPos : Nat
  /-- the parameter FONT (R12, log 3): no transaction writes it -/
  font : Font
  /-- the next host commands, in order (HostSchedule, R170, log 1): the model's own -/
  schedule : List Command
  /-- what the host issues after them (HostSchedule, R170, log 1): the model's own -/
  hostTail : HostTail
  /-- what the host has been handed so far, oldest first (log 2): the model's own -/
  outputs : List Output
deriving DecidableEq, Repr

/-- Why the MODEL would stop with a fault: never. The spec's fatal conditions latch a record and the machine goes on
taking host commands (R152, R155), so each is a next state (log 5, safe). No meaning raises a fault of this type, and it
has no value. -/
inductive Fault where
deriving DecidableEq, Repr

/-- Why the model would refuse an instruction. -/
inductive Refusal where
  /-- raised only by an arm of exec whose instruction has no meaning yet (none is left); safe -/
  | notModelled (mnemonic : String)
deriving DecidableEq, Repr

/-- The block right after construction (R180): registers, timers and the stack cleared, pc at the program base, no key
down, nothing pending, paused or latched, no image, and memory as the reset contents. The last five fields are the
model's: rngPos 0, schedule and outputs empty, hostTail advances (DESIGN CHOICE, logs 1, 2, 4), font the spec's default (PRESUMED, log 3). -/
def State.reset : State where
  mem := []
  V := Vector.replicate 16 0
  I := 0
  pc := BitVec.ofNat 16 Config.progBase
  stack := []
  DT := 0
  ST := 0
  screen := Vector.replicate Config.screenH (Vector.replicate Config.screenW false)
  keys := Vector.replicate Config.numKeys false
  pending := none
  paused := false
  fault := none
  image := []
  rngPos := 0
  font := Config.defaultFont
  schedule := []
  hostTail := .advances
  outputs := []

end Sys2Proof.Machine
end

