-- ==== Sys2Proof/Machine/Ops.lean ====
section
/-! DEFINITION. The named operations over memory, registers, the stack, the screen and the fault latch that every
meaning and every host command is written from (20_memory.md, 10_state.md, 60_exceptions.md R150 to R155). -/

namespace Sys2Proof.Machine

/-- What one transaction answers. -/
abbrev Result := Host.Outcome State Fault Refusal

/-! ## Memory (20_memory.md) -/

/-- What an unlisted address reads as: the reset contents, FONT in 0x000..0x04F and 0 elsewhere (R41, R180). -/
def Memory.background (font : Font) (a : Nat) : Byte :=
  if h : a < Config.fontSize then font[a] else 0

/-- The listed byte at an address, if it is listed. -/
def Memory.find : Memory → Nat → Option Byte
  | [], _ => none
  | (k, b) :: rest, a => if k = a then some b else Memory.find rest a

/-- The byte at an address. -/
def Memory.read (font : Font) (m : Memory) (a : Nat) : Byte :=
  (Memory.find m a).getD (Memory.background font a)

/-- List a byte at an address, in its place among rising addresses. -/
def Memory.insert : Memory → Nat → Byte → Memory
  | [], a, v => [(a, v)]
  | (k, b) :: rest, a, v =>
    if a < k then (a, v) :: (k, b) :: rest
    else if a = k then (a, v) :: rest
    else (k, b) :: Memory.insert rest a v

/-- Unlist an address. -/
def Memory.erase : Memory → Nat → Memory
  | [], _ => []
  | (k, b) :: rest, a => if k = a then Memory.erase rest a else (k, b) :: Memory.erase rest a

/-- Set a byte, keeping the canonical form: writing what an unlisted address reads as unlists the address. -/
def Memory.write (font : Font) (m : Memory) (a : Nat) (v : Byte) : Memory :=
  if v = Memory.background font a then Memory.erase m a else Memory.insert m a v

/-- The canonical form, from a lower bound on the addresses: strictly rising, inside the 4096 bytes, no entry equal to
what an unlisted address reads as. -/
def Memory.wfFrom (font : Font) : Nat → Memory → Bool
  | _, [] => true
  | lo, (k, b) :: rest =>
    decide (lo ≤ k) && decide (k < Config.memSize) && decide (b ≠ Memory.background font k)
      && Memory.wfFrom font (k + 1) rest

/-- The canonical form of memory. -/
def Memory.wf (font : Font) (m : Memory) : Bool := Memory.wfFrom font 0 m

/-- Memory rebuilt wholesale (R181, R182): zeros, FONT, then the bytes from an address on. -/
def Memory.ofImage (font : Font) : Nat → List Byte → Memory
  | _, [] => []
  | a, b :: bs =>
    if b = Memory.background font a then Memory.ofImage font (a + 1) bs
    else (a, b) :: Memory.ofImage font (a + 1) bs

/-! ## Named updates of one component -/

/-- V[x] as a value (R17). -/
def State.reg (s : State) (x : RegIx) : Byte := s.V[x.val]
/-- `V[x] <- b` (R17). -/
def State.setReg (s : State) (x : RegIx) (b : Byte) : State := { s with V := s.V.set x.val b }
/-- The whole register file replaced. -/
def State.setRegs (s : State) (v : Regs) : State := { s with V := v }
/-- `I <- w`. -/
def State.setIndex (s : State) (w : Word) : State := { s with I := w }
/-- `pc <- target`. -/
def State.setPc (s : State) (w : Word) : State := { s with pc := w }
/-- The stack replaced. -/
def State.setStack (s : State) (st : List Word) : State := { s with stack := st }
/-- `DT <- b`. -/
def State.setDelay (s : State) (b : Byte) : State := { s with DT := b }
/-- `ST <- b`. -/
def State.setSound (s : State) (b : Byte) : State := { s with ST := b }
/-- The framebuffer write port (R132). -/
def State.setScreen (s : State) (g : Screen) : State := { s with screen := g }
/-- `keys[k] <- b`. -/
def State.setKey (s : State) (k : KeyIx) (b : Bool) : State := { s with keys := s.keys.set k.val b }
/-- The pending slot written. -/
def State.setPending (s : State) (p : Option RegIx) : State := { s with pending := p }
/-- The pause flag written. -/
def State.setPaused (s : State) (b : Bool) : State := { s with paused := b }
/-- The RNG position written. -/
def State.setRngPos (s : State) (n : Nat) : State := { s with rngPos := n }
/-- The host's listed commands. -/
def State.setSchedule (s : State) (cs : List Command) : State := { s with schedule := cs }
/-- What the host does after its listed commands. -/
def State.setHostTail (s : State) (h : HostTail) : State := { s with hostTail := h }
/-- A result or event handed to the host (log 2). -/
def State.emit (s : State) (o : Output) : State := { s with outputs := s.outputs ++ [o] }
/-- `mem[a] <- v`. -/
def State.writeByte (s : State) (a : Nat) (v : Byte) : State := { s with mem := Memory.write s.font s.mem a v }

/-- `mem[a]`. -/
def State.readByte (s : State) (a : Nat) : Byte := Memory.read s.font s.mem a

/-- `keys[k]`. -/
def State.key (s : State) (k : KeyIx) : Bool := s.keys[k.val]

/-- The pixel at column c and row r (R28). -/
def State.pixel (s : State) (c : Fin Config.screenW) (r : Fin Config.screenH) : Bool := s.screen[r.val][c.val]

/-! ## Bounds-checked access (R42, R43, R48) -/

/-- The lowest out-of-range address among len bytes from base, if there is one: max(base, 4096). Addresses are
unbounded naturals; no byte, no check. -/
def firstOutOfRange (base len : Nat) : Option Nat :=
  if len = 0 ∨ base + len ≤ Config.memSize then none else some (max base Config.memSize)

/-- The bytes at base .. base+len-1, no check. -/
def State.bytesAt (s : State) : Nat → Nat → List Byte
  | _, 0 => []
  | base, len + 1 => s.readByte base :: State.bytesAt s (base + 1) len

/-- Bytes written at base, base+1, …, no check. -/
def State.writeBytes (s : State) : Nat → List Byte → State
  | _, [] => s
  | base, b :: bs => State.writeBytes (s.writeByte base b) (base + 1) bs

/-- MemRead over a range, all or nothing: the bytes, or the lowest out-of-range address (R42, R48). -/
def State.loadBytes (s : State) (base len : Nat) : Except Nat (List Byte) :=
  match firstOutOfRange base len with
  | some bad => .error bad
  | none => .ok (s.bytesAt base len)

/-- MemWrite over a range, all or nothing: every address is checked before the first write (R43, R48). -/
def State.storeBytes (s : State) (base : Nat) (bytes : List Byte) : Except Nat State :=
  match firstOutOfRange base bytes.length with
  | some bad => .error bad
  | none => .ok (s.writeBytes base bytes)

/-- `Fetch(pc)` (R44): the big-endian word at pc, none when pc + 1 is past the end of memory. -/
def State.fetch (s : State) : Option Word :=
  if s.pc.toNat + 1 < Config.memSize then
    some (wordOfBytes (s.readByte s.pc.toNat) (s.readByte (s.pc.toNat + 1)))
  else none

/-- Put the word w where the next advance fetches it, and make that advance fetch: the two bytes at pc (at the program
base if pc itself cannot be fetched), nothing latched, nothing awaited, a host that issues advance. -/
def State.placeWord (s : State) (op : Word) : State :=
  let pc := if s.pc.toNat + 1 < Config.memSize then s.pc else BitVec.ofNat 16 Config.progBase
  { (s.writeBytes pc.toNat (bytesOfWord op)) with pc := pc, fault := none, pending := none, schedule := [],
                                                  hostTail := .advances }

/-! ## The call stack (R25) -/

/-- `push(v)`: appends v; none when 16 entries are already there. -/
def State.push (s : State) (v : Word) : Option State :=
  if s.stack.length < Config.stackDepth then some (s.setStack (s.stack ++ [v])) else none

/-- `pop()`: the last entry and the state without it; none when the stack is empty. -/
def State.pop (s : State) : Option (Word × State) :=
  match s.stack.getLast? with
  | none => none
  | some w => some (w, s.setStack s.stack.dropLast)

/-! ## The random source (R13, R111) -/

/-- `draw RNG()`: the next random byte, and the state that has consumed it. -/
def State.drawRandom (s : State) : Byte × State := (Config.rng s.rngPos, s.setRngPos (s.rngPos + 1))

/-! ## The screen (R131) -/

/-- A column modulo the screen width (R131). -/
def wrapColumn (n : Nat) : Fin Config.screenW := ⟨n % Config.screenW, Nat.mod_lt _ (by decide)⟩

/-- A row modulo the screen height (R131). -/
def wrapRow (n : Nat) : Fin Config.screenH := ⟨n % Config.screenH, Nat.mod_lt _ (by decide)⟩

/-- A sprite bit that is set: the pixel toggles, and a pixel that was set is a collision. -/
def togglePixel (px : Fin Config.screenW) (py : Fin Config.screenH) (acc : Screen × Bool) : Screen × Bool :=
  let old := acc.1[py.val][px.val]
  (acc.1.set py.val (acc.1[py.val].set px.val (!old)), acc.2 || old)

/-- One bit of a sprite row: bit 7 - c of b, the most significant bit leftmost, at column (cx + c) mod 64. -/
def drawBit (cx : Nat) (py : Fin Config.screenH) (b : Byte) (acc : Screen × Bool) (c : Nat) : Screen × Bool :=
  if b.getLsbD (7 - c) then togglePixel (wrapColumn (cx + c)) py acc else acc

/-- One row of a sprite: its eight bits from the left. -/
def drawRow (cx : Nat) (py : Fin Config.screenH) (b : Byte) (acc : Screen × Bool) : Screen × Bool :=
  [0, 1, 2, 3, 4, 5, 6, 7].foldl (drawBit cx py b) acc

/-- The rows of a sprite, the first at row cy mod 32, each next one row further, modulo 32 per row. -/
def drawRows (cx : Nat) : Nat → List Byte → Screen × Bool → Screen × Bool
  | _, [], acc => acc
  | cy, b :: bs, acc => drawRows cx (cy + 1) bs (drawRow cx (wrapRow cy) b acc)

/-- The screen with no pixel set. -/
def blankScreen : Screen := Vector.replicate Config.screenH (Vector.replicate Config.screenW false)

/-! ## Taking a fault (R150 to R155): the one exception mechanism of the block -/

/-- The numeric code of a fault kind (R150). -/
def FaultKind.code : FaultKind → Nat
  | .fetchOutOfRange => 1
  | .unknownOpcode => 2
  | .stackOverflow => 3
  | .stackUnderflow => 4
  | .dataOutOfRange => 5
  | .keyOutOfRange => 6

/-- `fault <- record`, only if none is latched (R152). There is no vector, mode or saved register (R154), and no
return: only construction and reset() clear the latch (R155). -/
def State.latch (s : State) (r : FaultRecord) : State :=
  { s with fault := match s.fault with
      | none => some r
      | some old => some old }

/-- A, the address of the instruction being executed: pc - 2 (R150). -/
def State.instrAddr (s : State) : Word := s.pc - 2

/-- `raise Fault(kind, info)` while i executes: the record is latched and the transaction ends with nothing else
written, so pc stays at A + 2 (R83, R151, R152). -/
def raise (i : Instr) (kind : FaultKind) (info : Nat) (s : State) : Result :=
  .next (s.latch ⟨kind, s.instrAddr, some (encode i), info⟩)

/-- `raise Fault(FetchOutOfRange, pc)`: before the increment, so pc is unchanged (R44, R80, R151). -/
def raiseFetch (s : State) : Result :=
  .next (s.latch ⟨.fetchOutOfRange, s.pc, none, s.pc.toNat⟩)

end Sys2Proof.Machine
end

