-- ==== Sys2Proof/Machine/Operands.lean ====
section
/-! DEFINITION. The operand forms (30_encoding.md R63): immediates are zero-extended or used unchanged, registers are
named by index, Fx55 and Fx65 take the inclusive range V0..Vx, and memory operands are I + k in unbounded naturals. -/

namespace Sys2Proof.Machine

/-- `zext_16(nnn)` (R63). -/
def addrOperand (nnn : Addr12) : Word := nnn.setWidth 16

/-- `zext_16(V[x])`. -/
def State.regWord (s : State) (x : RegIx) : Word := (s.reg x).setWidth 16

/-- The base address of an access through I, as a natural number (20_memory.md R48). -/
def State.base (s : State) : Nat := s.I.toNat

/-- The bytes of V0..Vx, inclusive (R63, R124). -/
def State.regRange (s : State) (x : RegIx) : List Byte := s.V.toList.take (x.val + 1)

/-- Bytes written to V[k], V[k+1], … in order (R125). -/
def loadRegsFrom : Nat → List Byte → Regs → Regs
  | _, [], v => v
  | k, b :: bs, v => loadRegsFrom (k + 1) bs (v.setIfInBounds k b)

/-- The BCD digits of a byte: hundreds, tens, units (42_register_alu.md R112, R123). -/
def bcdDigits (v : Byte) : List Byte :=
  [BitVec.ofNat 8 (v.toNat / 100), BitVec.ofNat 8 (v.toNat / 10 % 10), BitVec.ofNat 8 (v.toNat % 10)]

/-- The key a register names, none when its value is no key (R140, R141). -/
def keyOperand (b : Byte) : Option KeyIx := if h : b.toNat < Config.numKeys then some ⟨b.toNat, h⟩ else none

end Sys2Proof.Machine
end

