-- ==== Sys2Proof/Machine/Flags.lean ====
section
/-! DEFINITION. The values of the one flag, VF (10_state.md R22), and the order of an instruction's two writes: the
result first, VF last (40_execution_cycle.md R85). -/

namespace Sys2Proof.Machine

/-- The register VF. -/
def vf : RegIx := 15

/-- A condition as VF holds it: 1 or 0. -/
def flagByte (b : Bool) : Byte := if b then 1 else 0

/-- Carry out of bit 7 of a + b (R106). -/
def addCarry (a b : Byte) : Bool := decide (256 ≤ a.toNat + b.toNat)

/-- No borrow in a - b (R107, R109). -/
def noBorrow (a b : Byte) : Bool := decide (b.toNat ≤ a.toNat)

/-- The bit a right shift puts out (R108). -/
def shiftOutRight (b : Byte) : Bool := b.getLsbD 0

/-- The bit a left shift puts out (R110). -/
def shiftOutLeft (b : Byte) : Bool := b.getLsbD 7

/-- A result to V[x], then the flag to VF: with x = 0xF the flag survives (R85). -/
def State.setRegFlag (s : State) (x : RegIx) (b : Byte) (flag : Bool) : State :=
  (s.setReg x b).setReg vf (flagByte flag)

end Sys2Proof.Machine
end

