-- ==== Sys2Proof/Machine/Alu.lean ====
section
/-! DEFINITION. The register and ALU instructions (42_register_alu.md R100 to R112). Operands are read before the
first write; no instruction here can fault. -/

namespace Sys2Proof.Machine

/-- R100. -/
def execSetVxImm (x : RegIx) (nn : Byte) (s : State) : Result := .next (s.setReg x nn)

/-- R101: wrapping, no flag. -/
def execAddVxImm (x : RegIx) (nn : Byte) (s : State) : Result := .next (s.setReg x (s.reg x + nn))

/-- R102. -/
def execSetVxVy (x y : RegIx) (s : State) : Result := .next (s.setReg x (s.reg y))

/-- R103: VF is not reset. -/
def execOrVxVy (x y : RegIx) (s : State) : Result := .next (s.setReg x (s.reg x ||| s.reg y))

/-- R104. -/
def execAndVxVy (x y : RegIx) (s : State) : Result := .next (s.setReg x (s.reg x &&& s.reg y))

/-- R105. -/
def execXorVxVy (x y : RegIx) (s : State) : Result := .next (s.setReg x (s.reg x ^^^ s.reg y))

/-- R106. -/
def execAddVxVy (x y : RegIx) (s : State) : Result :=
  .next (s.setRegFlag x (s.reg x + s.reg y) (addCarry (s.reg x) (s.reg y)))

/-- R107: Vx - Vy, VF = not borrow. -/
def execSubVxVy (x y : RegIx) (s : State) : Result :=
  .next (s.setRegFlag x (s.reg x - s.reg y) (noBorrow (s.reg x) (s.reg y)))

/-- R108: the source is Vy. -/
def execRShiftVx (x y : RegIx) (s : State) : Result :=
  .next (s.setRegFlag x (s.reg y >>> 1) (shiftOutRight (s.reg y)))

/-- R109: Vy - Vx, VF = not borrow. -/
def execSubVyVx (x y : RegIx) (s : State) : Result :=
  .next (s.setRegFlag x (s.reg y - s.reg x) (noBorrow (s.reg y) (s.reg x)))

/-- R110: the source is Vy. -/
def execLShiftVx (x y : RegIx) (s : State) : Result :=
  .next (s.setRegFlag x (s.reg y <<< 1) (shiftOutLeft (s.reg y)))

/-- V[x] written with a drawn byte under the mask nn (R111). -/
def State.setRandom (s : State) (x : RegIx) (nn drawn : Byte) : State := s.setReg x (drawn &&& nn)

/-- R111: one value is drawn whatever nn is. -/
def execSetVxRnd (x : RegIx) (nn : Byte) (s : State) : Result :=
  .next (s.drawRandom.2.setRandom x nn s.drawRandom.1)

end Sys2Proof.Machine
end

