-- ==== Sys2Proof/Machine/ControlFlow.lean ====
section
/-! DEFINITION. The control flow instructions (41_control_flow.md R90 to R98) and the execution of Unknown
(40_execution_cycle.md R82). Each starts with pc = A + 2 (R81). -/

namespace Sys2Proof.Machine

/-- "Skip next": `if c: pc <- (pc + 2) mod 2^16` (R81). -/
def skipIf (c : Bool) (s : State) : State := if c then s.setPc (s.pc + 2) else s

/-- R90. -/
def execNop (s : State) : Result := .next s

/-- R91. -/
def execRet (s : State) : Result :=
  match s.pop with
  | none => raise .ret .stackUnderflow s.instrAddr.toNat s
  | some (ret, s') => .next (s'.setPc ret)

/-- R92. -/
def execJump (nnn : Addr12) (s : State) : Result := .next (s.setPc (addrOperand nnn))

/-- R93. -/
def execCall (nnn : Addr12) (s : State) : Result :=
  match s.push s.pc with
  | none => raise (.call nnn) .stackOverflow s.instrAddr.toNat s
  | some s' => .next (s'.setPc (addrOperand nnn))

/-- R94. -/
def execSkipEqImm (x : RegIx) (nn : Byte) (s : State) : Result := .next (skipIf (s.reg x == nn) s)

/-- R95. -/
def execSkipNeImm (x : RegIx) (nn : Byte) (s : State) : Result := .next (skipIf (s.reg x != nn) s)

/-- R96. -/
def execSkipEqReg (x y : RegIx) (s : State) : Result := .next (skipIf (s.reg x == s.reg y) s)

/-- R97. -/
def execSkipNeReg (x y : RegIx) (s : State) : Result := .next (skipIf (s.reg x != s.reg y) s)

/-- R98: the sum is not masked to 12 bits. -/
def execJumpV0 (nnn : Addr12) (s : State) : Result := .next (s.setPc (addrOperand nnn + s.regWord 0))

/-- R82: the one effect of Unknown is the latched fault. -/
def execUnknown (op : Word) (s : State) : Result := raise (.unknown op) .unknownOpcode op.toNat s

end Sys2Proof.Machine
end

