-- ==== Sys2Proof/Machine/Display.lean ====
section
/-! DEFINITION. The display instructions (44_display.md R130, R131), the only two that write the screen (R132). -/

namespace Sys2Proof.Machine

/-- R130. -/
def execClearScreen (s : State) : Result := .next (s.setScreen blankScreen)

/-- The screen after the sprite is XORed in at column cx and row cy, and whether any pixel was turned off (R131). -/
def State.drawSprite (s : State) (cx cy : Byte) (sprite : List Byte) : Screen × Bool :=
  drawRows cx.toNat cy.toNat sprite (s.screen, false)

/-- R131: coordinates and bytes are read first, VF is written last; n = 0 reads nothing and writes VF with 0. -/
def execDraw (x y : RegIx) (n : Fin 16) (s : State) : Result :=
  match s.loadBytes s.base n.val with
  | .error bad => raise (.draw x y n) .dataOutOfRange bad s
  | .ok sprite =>
    .next ((s.setScreen (s.drawSprite (s.reg x) (s.reg y) sprite).1).setReg vf
      (flagByte (s.drawSprite (s.reg x) (s.reg y) sprite).2))

end Sys2Proof.Machine
end

