-- ==== Sys2Proof/Machine/IndexMemory.lean ====
section
/-! DEFINITION. The index register and memory instructions (43_index_memory.md R120 to R125). Every address is
checked before the first write (20_memory.md R48); I is unchanged by the accesses. -/

namespace Sys2Proof.Machine

/-- R120. -/
def execSetIndex (nnn : Addr12) (s : State) : Result := .next (s.setIndex (addrOperand nnn))

/-- R121: modulo 2^16, no flag. -/
def execAddIndex (x : RegIx) (s : State) : Result := .next (s.setIndex (s.I + s.regWord x))

/-- R122: V[x]·5, not masked. -/
def execFontGlyph (x : RegIx) (s : State) : Result :=
  .next (s.setIndex (s.regWord x * BitVec.ofNat 16 Config.glyphBytes))

/-- R123. -/
def execBcd (x : RegIx) (s : State) : Result :=
  match s.storeBytes s.base (bcdDigits (s.reg x)) with
  | .error bad => raise (.bcd x) .dataOutOfRange bad s
  | .ok s' => .next s'

/-- R124. -/
def execStoreRegs (x : RegIx) (s : State) : Result :=
  match s.storeBytes s.base (s.regRange x) with
  | .error bad => raise (.storeRegs x) .dataOutOfRange bad s
  | .ok s' => .next s'

/-- R125. -/
def execLoadRegs (x : RegIx) (s : State) : Result :=
  match s.loadBytes s.base (x.val + 1) with
  | .error bad => raise (.loadRegs x) .dataOutOfRange bad s
  | .ok bytes => .next (s.setRegs (loadRegsFrom 0 bytes s.V))

end Sys2Proof.Machine
end

