-- ==== Sys2Proof/Machine/KeysTimers.lean ====
section
/-! DEFINITION. The key and timer instructions (45_keys_timers.md R140 to R145). -/

namespace Sys2Proof.Machine

/-- The key skips: the fault when V[x] names no key, else skip when the key's state is the one wanted (R140, R141). -/
def skipOnKey (i : Instr) (x : RegIx) (wanted : Bool) (s : State) : Result :=
  match keyOperand (s.reg x) with
  | none => raise i .keyOutOfRange (s.reg x).toNat s
  | some k => .next (skipIf (s.key k == wanted) s)

/-- R140. -/
def execSkipKeyDown (x : RegIx) (s : State) : Result := skipOnKey (.skipKeyDown x) x true s

/-- R141. -/
def execSkipKeyUp (x : RegIx) (s : State) : Result := skipOnKey (.skipKeyUp x) x false s

/-- R142. -/
def execGetDelay (x : RegIx) (s : State) : Result := .next (s.setReg x s.DT)

/-- R143: the wait begins; V[x] is written by the release that ends it (60_exceptions.md R165). -/
def execWaitKey (x : RegIx) (s : State) : Result := .next (s.setPending (some x))

/-- R144. -/
def execSetDelay (x : RegIx) (s : State) : Result := .next (s.setDelay (s.reg x))

/-- R145: no StopSound event, even when 0 is written. -/
def execSetSound (x : RegIx) (s : State) : Result := .next (s.setSound (s.reg x))

end Sys2Proof.Machine
end

