-- ==== Sys2Proof/Machine/Commands.lean ====
section
/-! DEFINITION. The transactions of the block: the execution cycle (40_execution_cycle.md R80, R84), the timer, key,
framebuffer and debug ports (60_exceptions.md R160 to R174), and load and reset (70_reset_and_hazards.md R181 to R183). -/

namespace Sys2Proof.Machine

/-- `advance()` (R80): nothing when a fault is latched or a key is awaited; else fetch, increment pc, decode, execute. -/
def advance (s : State) : Result :=
  if s.fault.isSome then .next s
  else if s.pending.isSome then .next s
  else match s.fetch with
    | none => raiseFetch s
    | some op => exec (decode op) (s.setPc (s.pc + 2))

/-- `step_back()` (R171): pc - 4, then one advance; nothing when a fault is latched. -/
def stepBack (s : State) : Result :=
  if s.fault.isSome then .next s else advance (s.setPc (s.pc - 4))

/-- One timer's countdown: at most one per tick, floor at zero (R27, R160). -/
def countDown (b : Byte) : Byte := if b = 0 then 0 else b - 1

/-- `tick_timers()` (R160); the StopSound event exactly on the 1 → 0 edge of ST (R161). -/
def tickTimers (s : State) : State :=
  let s' := (s.setDelay (countDown s.DT)).setSound (countDown s.ST)
  if s.ST ≠ 0 ∧ countDown s.ST = 0 then s'.emit .stopSound else s'

/-- `press(k)` (R164). -/
def pressKey (k : KeyIx) (s : State) : State := s.setKey k true

/-- The key's numeric value 0x0..0xF as a byte (R165). -/
def keyByte (k : KeyIx) : Byte := BitVec.ofNat 8 k.val

/-- `release(k)` (R165): the key goes up, and a pending wait is resolved with the key's number. -/
def releaseKey (k : KeyIx) (s : State) : State :=
  match s.pending with
  | none => s.setKey k false
  | some r => ((s.setKey k false).setReg r (keyByte k)).setPending none

/-- `load(bytes)` (R182, R183): memory rebuilt wholesale and the image recorded, or LoadError and no change. -/
def loadImage (bytes : List Byte) (s : State) : State :=
  if bytes.length ≤ Config.maxImage then
    { s with mem := Memory.ofImage s.font Config.progBase bytes, image := bytes }.emit .loadOk
  else s.emit (.loadError bytes.length)

/-- `reset()` (R181): every component to its initial value, memory rebuilt with the kept image. What is not the block's
own (FONT, the RNG position, the host's side) is kept (logs 1 to 4). -/
def resetBlock (s : State) : State :=
  { State.reset with
    mem := Memory.ofImage s.font Config.progBase s.image
    image := s.image
    rngPos := s.rngPos
    font := s.font
    schedule := s.schedule
    hostTail := s.hostTail
    outputs := s.outputs }

/-- The grid as get_screen() gives it: element r·64 + c is the pixel at column c and row r (R168). -/
def State.gridList (s : State) : List Bool := s.screen.toList.flatMap (fun row => row.toList)

/-- `fetch_at(a)` (R172): decode-only, with an error result past the end of memory. -/
def fetchAt (a : Word) (s : State) : Output :=
  if a.toNat + 1 < Config.memSize then
    .operation (decode (wordOfBytes (s.readByte a.toNat) (s.readByte (a.toNat + 1))))
  else .fetchAtOutOfRange a

/-- `sound_active` (R162). -/
def State.soundActive (s : State) : Bool := s.ST != 0

/-- One host command as one atomic transaction (R5). -/
def perform (c : Command) (s : State) : Result :=
  match c with
  | .advance => advance s
  | .stepBack => stepBack s
  | .tickTimers => .next (tickTimers s)
  | .press k => .next (pressKey k s)
  | .release k => .next (releaseKey k s)
  | .isDown k => .next (s.emit (.keyDown (s.key k)))
  | .snapshot => .next (s.emit (.keySnapshot s.keys))
  | .load bytes => .next (loadImage bytes s)
  | .reset => .next (resetBlock s)
  | .getScreen => .next (s.emit (.pixels s.gridList))
  | .fetchAt a => .next (s.emit (fetchAt a s))
  | .isPaused => .next (s.emit (.pausedFlag s.paused))
  | .pauseOrResume => .next (s.setPaused (!s.paused))
  | .readRegisters => .next (s.emit (.registers s.V s.I s.pc s.DT s.ST))
  | .readFault => .next (s.emit (.faultRecord s.fault))
  | .readPending => .next (s.emit (.pendingSlot s.pending))
  | .readSound => .next (s.emit (.soundLevel s.soundActive))

/-- The command the host issues next, and the state in which it has been issued; none when the host has stopped (R170,
log 1). -/
def State.takeCommand (s : State) : Option (Command × State) :=
  match s.schedule with
  | c :: rest => some (c, s.setSchedule rest)
  | [] =>
    match s.hostTail with
    | .advances => some (.advance, s)
    | .free n => some (Config.hostCommand n, s.setHostTail (.free (n + 1)))
    | .ends => none

/-- The next transaction of the host's schedule; nothing happens when the host has stopped. -/
def nextTransaction (s : State) : Result :=
  match s.takeCommand with
  | none => .next s
  | some (c, s') => perform c s'

end Sys2Proof.Machine
end

