-- ==== Sys2Proof/Machine/Step.lean ====
section
/-! DEFINITION. One step of the machine, and the placing of a word where the next step fetches it. -/

namespace Sys2Proof.Machine

/-- One step: one host transaction (R5, log 1). -/
def step (s : State) : Host.Outcome State Fault Refusal := nextTransaction s

/-- The state whose very next step fetches and runs the word w (log 7); more bits than an instruction has place
nothing. -/
def State.withFetchWord (s : State) (nbits w : Nat) : State :=
  if nbits ≤ 16 then s.placeWord (BitVec.ofNat 16 w) else s

end Sys2Proof.Machine
end

