-- ==== Sys2Proof/Safety.lean ====
section
/-! DEFINITION. The terms claims about the machine use: the components of the state and frames over them, the
execution FSM (60_exceptions.md R159), the invariant of the machine, which instruction may write what or raise what,
and which pixels a sprite covers. -/

namespace Sys2Proof

open Machine (FaultKind)

/-! ## What an instruction may do -/

/-- Registers an instruction may write: its destination field, VF for the six flag writers of R22, V0..Vx for Fx65. -/
def Instr.mayWrite : Instr → RegIx → Bool
  | .nop, _ | .clearScreen, _ | .ret, _ | .jump _, _ | .call _, _ | .jumpV0 _, _ | .setIndex _, _ => false
  | .skipEqImm _ _, _ | .skipNeImm _ _, _ | .skipEqReg _ _, _ | .skipNeReg _ _, _ => false
  | .setVxImm x _, k | .addVxImm x _, k | .setVxRnd x _, k => k == x
  | .setVxVy x _, k | .orVxVy x _, k | .andVxVy x _, k | .xorVxVy x _, k => k == x
  | .addVxVy x _, k | .subVxVy x _, k | .rShiftVx x _, k | .subVyVx x _, k | .lShiftVx x _, k => k == x || k == 15
  | .draw _ _ _, k => k == 15
  | .skipKeyDown _, _ | .skipKeyUp _, _ | .waitKey _, _ | .setDelay _, _ | .setSound _, _ => false
  | .getDelay x, k => k == x
  | .addIndex _, _ | .fontGlyph _, _ | .bcd _, _ | .storeRegs _, _ => false
  | .loadRegs x, k => decide (k ≤ x)
  | .unknown _, _ => false

/-- The one fault condition an instruction has, if it has one (R150, R153). -/
def Instr.faultKind? : Instr → Option FaultKind
  | .ret => some .stackUnderflow
  | .call _ => some .stackOverflow
  | .bcd _ | .storeRegs _ | .loadRegs _ | .draw _ _ _ => some .dataOutOfRange
  | .skipKeyDown _ | .skipKeyUp _ => some .keyOutOfRange
  | .unknown _ => some .unknownOpcode
  | .nop | .clearScreen | .jump _ | .jumpV0 _ | .setIndex _ => none
  | .skipEqImm _ _ | .skipNeImm _ _ | .skipEqReg _ _ | .skipNeReg _ _ => none
  | .setVxImm _ _ | .addVxImm _ _ | .setVxRnd _ _ => none
  | .setVxVy _ _ | .orVxVy _ _ | .andVxVy _ _ | .xorVxVy _ _ => none
  | .addVxVy _ _ | .subVxVy _ _ | .rShiftVx _ _ | .subVyVx _ _ | .lShiftVx _ _ => none
  | .getDelay _ | .waitKey _ | .setDelay _ | .setSound _ | .addIndex _ | .fontGlyph _ => none

end Sys2Proof

namespace Sys2Proof.Machine

/-! ## Frames -/

/-- The components of the state a frame speaks of. -/
inductive Component where
  | regs | index | pc | stack | delay | sound | screen | memory | keys | pending | paused | fault | image
  | rng | font | schedule | hostTail | outputs
deriving DecidableEq, Repr

/-- A component reads the same in both states: registers one by one, memory byte by byte, the screen pixel by pixel. -/
def Component.same : Component → State → State → Prop
  | .regs, s, t => ∀ k, t.reg k = s.reg k
  | .index, s, t => t.I = s.I
  | .pc, s, t => t.pc = s.pc
  | .stack, s, t => t.stack = s.stack
  | .delay, s, t => t.DT = s.DT
  | .sound, s, t => t.ST = s.ST
  | .screen, s, t => ∀ c r, t.pixel c r = s.pixel c r
  | .memory, s, t => ∀ a, t.readByte a = s.readByte a
  | .keys, s, t => ∀ k, t.key k = s.key k
  | .pending, s, t => t.pending = s.pending
  | .paused, s, t => t.paused = s.paused
  | .fault, s, t => t.fault = s.fault
  | .image, s, t => t.image = s.image
  | .rng, s, t => t.rngPos = s.rngPos
  | .font, s, t => t.font = s.font
  | .schedule, s, t => t.schedule = s.schedule
  | .hostTail, s, t => t.hostTail = s.hostTail
  | .outputs, s, t => t.outputs = s.outputs

/-- Every component but the listed ones reads the same after as before. -/
def Frame (changed : List Component) (s t : State) : Prop := ∀ c, c ∉ changed → c.same s t

/-! ## The execution FSM (R159) -/

/-- The three states of the FSM. -/
inductive Fsm where
  | running
  | awaitingKey (r : RegIx)
  | faulted
deriving DecidableEq, Repr

/-- The FSM's state as a function of `fault` and `pending`. -/
def State.fsm (s : State) : Fsm :=
  match s.fault, s.pending with
  | some _, _ => .faulted
  | none, some r => .awaitingKey r
  | none, none => .running

/-- The host's next command, and every later one, is advance. -/
abbrev State.hostAdvances (s : State) : Prop := s.schedule = [] ∧ s.hostTail = .advances

/-- The next step of the machine fetches and executes an instruction: the host advances, the FSM is Running and the word
at pc lies in memory. -/
abbrev State.ready (s : State) : Prop :=
  s.hostAdvances ∧ s.fault = none ∧ s.pending = none ∧ s.pc.toNat + 1 < 4096

/-- A run is safe as long as no fatal condition has been latched (R187). -/
abbrev State.safe (s : State) : Prop := s.fault = none

/-! ## The invariant of the machine -/

/-- A record names the opcode exactly when it is not a fetch fault (R151). -/
def FaultRecord.wf (r : FaultRecord) : Bool := r.op.isNone == decide (r.kind = .fetchOutOfRange)

/-- Memory in canonical form, 0 to 16 stack entries (R25), an image of at most 3584 bytes (R32), never both a fault and
a wait (R159), and a record of the form of R151. -/
abbrev State.Inv (s : State) : Prop :=
  Memory.wf s.font s.mem = true ∧ s.stack.length ≤ 16 ∧ s.image.length ≤ 3584 ∧
  (s.fault.isSome = true → s.pending = none) ∧ s.fault.all FaultRecord.wf = true

/-- The bound R23 gives the program counter, with the bound on return addresses it rests on. -/
abbrev State.pcBounded (s : State) : Prop := s.pc.toNat ≤ 0x10FE ∧ ∀ w ∈ s.stack, w.toNat ≤ 0x1000

/-! ## Host schedules (60_exceptions.md R170, 92_eei_decisions.md D29) -/

/-- A HostSchedule: the i-th command the host issues, none where it issues none. Every finite and every infinite
sequence of commands is one. -/
abbrev HostSchedule := Nat → Option Command

/-- The transactions of the first k entries of a host schedule, one after another. -/
def runUnder (h : HostSchedule) : Nat → State → Result
  | 0, s => .next s
  | k + 1, s =>
    match runUnder h k s with
    | .next t =>
      match h k with
      | some c => perform c t
      | none => .next t
    | o => o

/-- The i-th command a tail stands for. -/
def HostTail.command : HostTail → Nat → Option Command
  | .advances, _ => some .advance
  | .free n, i => some (Config.hostCommand (n + i))
  | .ends, _ => none

/-- The host schedule a state holds: the listed commands, then the tail's. -/
def State.hostSchedule (s : State) : HostSchedule := fun i =>
  match s.schedule[i]? with
  | some c => some c
  | none => s.hostTail.command (i - s.schedule.length)

/-! ## Sprites (R131) -/

/-- The sprite of n bytes at I, drawn at column cx and row cy, has a set bit that lands on pixel (c, r). -/
def State.spriteCovers (s : State) (cx cy n : Nat) (c : Fin Config.screenW) (r : Fin Config.screenH) : Prop :=
  ∃ row col : Nat, row < n ∧ col < 8 ∧ (s.readByte (s.I.toNat + row)).getLsbD (7 - col) = true ∧
    (cx + col) % 64 = c.val ∧ (cy + row) % 32 = r.val

end Sys2Proof.Machine
end

