-- ==== Sys2Proof/Certificates/Slice0/Obligations.lean ====
section
/-! DEFINITION. The statements about the machine that are to be settled. Registers, memory and the screen are spoken of
through State.reg, State.readByte and State.pixel; `Frame l s t` says every component but those of l is unchanged. -/

open Sys2Proof Sys2Proof.Machine

/-! ## Encoding -/

/-- 30_encoding.md R67, R68: decoding the encoding of a well-formed instruction gives it back, every operand at every
value. -/
def Obligations.DecodeOfEncodeIsIdentity : Prop :=
  ∀ i : Instr, i.wf = true → decode (encode i) = i

/-- R68: "For all 65536 words, `encode(decode(op)) = op`"; decode is injective; Unknown(op) encodes to op. -/
def Obligations.EncodeOfDecodeIsIdentity : Prop :=
  (∀ op : Word, encode (decode op) = op) ∧
  (∀ op op' : Word, decode op = decode op' → op = op') ∧
  (∀ op : Word, encode (.unknown op) = op)

/-- R65: the rows are pairwise disjoint; a word a row takes decodes to that row's operation; a word no row takes decodes
to Unknown of that word. R64, R66: whatever the word, what it decodes to is a well-formed instruction. -/
def Obligations.DecodeFollowsTheOpcodeMap : Prop :=
  opcodeRows.Pairwise (fun r q => ∀ op, ¬ (r.takes op = true ∧ q.takes op = true)) ∧
  (∀ r ∈ opcodeRows, ∀ op, r.takes op = true → (decode op).mnemonic? = some r.mnemonic) ∧
  (∀ op, (∀ r ∈ opcodeRows, r.takes op = false) → decode op = .unknown op) ∧
  (∀ op, (decode op).wf = true)

/-- Sanity: words written out from R62 and R65, one or more a family, decode to the operations they stand for. -/
def Obligations.SpecEncodingsDecode : Prop :=
  decode 0b0000000011101110 = .ret ∧
  decode 0b0001101010111100 = .jump 0xABC ∧
  decode 0b0011101001000010 = .skipEqImm 0xA 0x42 ∧
  decode 0b1000101010111110 = .lShiftVx 0xA 0xB ∧
  decode 0b1010001100000000 = .setIndex 0x300 ∧
  decode 0b1101000000011111 = .draw 0 1 0xF ∧
  decode 0b1110001010011110 = .skipKeyDown 2 ∧
  decode 0b1111001101100101 = .loadRegs 3 ∧
  decode 0b0101000100100001 = .unknown 0x5121

/-! ## The execution cycle -/

/-- 40_execution_cycle.md R80: when nothing is latched or awaited and the host's next command is advance, a step fetches
the big-endian word at pc, adds 2 to pc and executes what the word decodes to; with a host that goes on advancing, on the
state itself, and in general on the state s' in which the advance has been issued. -/
def Obligations.StepRunsTheDecodedInstruction : Prop :=
  (∀ s : State, s.ready →
    step s = exec (decode (wordOfBytes (s.readByte s.pc.toNat) (s.readByte (s.pc.toNat + 1))))
      { s with pc := s.pc + 2 }) ∧
  (∀ s s' : State, s.takeCommand = some (.advance, s') → s.fault = none → s.pending = none → s.pc.toNat + 1 < 4096 →
    step s = exec (decode (wordOfBytes (s.readByte s.pc.toNat) (s.readByte (s.pc.toNat + 1))))
      { s' with pc := s.pc + 2 })

/-- R80: a faulted or a waiting block does nothing; else the fetch fault leaves pc as it is, or the word at pc is
fetched, pc moves by 2 modulo 2^16 and the decoded operation executes. The pause flag is tested nowhere. -/
def Obligations.AdvanceFetchesDecodesExecutes : Prop :=
  ∀ s : State,
    (s.fault ≠ none → advance s = .next s) ∧
    (s.pending ≠ none → advance s = .next s) ∧
    (s.fault = none → s.pending = none → 4096 ≤ s.pc.toNat + 1 →
      ∃ t, advance s = .next t ∧ (∃ r, t.fault = some r ∧ r.kind = .fetchOutOfRange ∧ r.info = s.pc.toNat) ∧
        Frame [.fault] s t) ∧
    (∀ b, s.fault = none → s.pending = none → s.pc.toNat + 1 < 4096 →
      advance { s with paused := b } =
        exec (decode (wordOfBytes (s.readByte s.pc.toNat) (s.readByte (s.pc.toNat + 1))))
          { s with pc := s.pc + 2, paused := b })

/-- R5, R170 (decision D29; its form in State is log 1): a step is one transaction of the host's schedule: the next
listed command, then what the tail gives, the free sequence included; a host that has stopped changes nothing. k steps
are the first k entries of the schedule the state holds, and that schedule is all the host's commands change of it. -/
def Obligations.StepsFollowTheHostSchedule : Prop :=
  (∀ (s : State) (c : Command) (rest : List Command), s.schedule = c :: rest →
    step s = perform c { s with schedule := rest }) ∧
  (∀ s : State, s.hostAdvances → step s = perform .advance s) ∧
  (∀ (s : State) (n : Nat), s.schedule = [] → s.hostTail = .free n →
    step s = perform (Config.hostCommand n) { s with hostTail := .free (n + 1) }) ∧
  (∀ s : State, s.schedule = [] → s.hostTail = .ends → step s = .next s) ∧
  (∀ (s : State) (k : Nat), ∃ t u, runUnder s.hostSchedule k s = .next t ∧ Sys2Proof.core.run k s = .next u ∧
    (∀ i, u.hostSchedule i = s.hostSchedule (k + i)) ∧ Frame [.schedule, .hostTail] t u)

/-- R160, R165, R170, R188 (decisions D17, D29): progress depends on the host. Over every finite and infinite host
schedule: once a release is issued no wait is pending; before a release or a reset a wait does not end; and while nothing
can write a timer, the timers have gone down by exactly the ticks issued, with floor 0. -/
def Obligations.ProgressDependsOnTheHost : Prop :=
  ∀ (h : HostSchedule) (s : State) (m : Nat),
    (∀ k, h m = some (.release k) → ∃ t, runUnder h (m + 1) s = .next t ∧ t.pending = none) ∧
    (∀ (t : State) (r : RegIx), s.pending = some r →
      (∀ i, i < m → h i ≠ some .reset ∧ ∀ k, h i ≠ some (.release k)) →
      runUnder h m s = .next t → t.pending = some r) ∧
    (∀ t : State, (∀ i, i < m → h i ≠ some .advance ∧ h i ≠ some .stepBack ∧ h i ≠ some .reset) →
      runUnder h m s = .next t →
      t.DT.toNat = s.DT.toNat - (List.range m).countP (fun i => h i = some .tickTimers) ∧
      t.ST.toNat = s.ST.toNat - (List.range m).countP (fun i => h i = some .tickTimers))

/-- The model's own convention (log 7), on R44 and R53: from EVERY state, the step after a word is placed runs that
word; only the two bytes at pc, and what would keep it from being fetched, are changed. -/
def Obligations.PlacedWordRunsNext : Prop :=
  ∀ (s : State) (w : Nat), s.pc.toNat + 1 < 4096 →
    ∃ t : State, step (s.withFetchWord 16 w) = exec (decode (BitVec.ofNat 16 w)) t ∧
      t.pc = s.pc + 2 ∧ t.fault = none ∧
      (∀ a, a ≠ s.pc.toNat → a ≠ s.pc.toNat + 1 → t.readByte a = s.readByte a) ∧
      Frame [.pc, .fault, .pending, .schedule, .hostTail, .memory] s t

/-- R44, R80, R151: a fetch with pc + 1 ≥ 4096 latches FetchOutOfRange with pc as address and info and no opcode; pc and
everything else are unchanged. -/
def Obligations.FetchPastMemoryLatches : Prop :=
  ∀ s : State, s.hostAdvances → s.fault = none → s.pending = none → 4096 ≤ s.pc.toNat + 1 →
    step s = .next { s with fault := some ⟨.fetchOutOfRange, s.pc, none, s.pc.toNat⟩ }

/-- R84, R155 (decision D15): a latched record stays as it is under every host command but reset; advance and step_back
then change nothing; reset clears it. -/
def Obligations.FaultLatchStaysUntilReset : Prop :=
  ∀ (s : State) (r : FaultRecord), s.fault = some r →
    advance s = .next s ∧ stepBack s = .next s ∧
    (∀ (c : Command) (t : State), c ≠ .reset → perform c s = .next t → t.fault = some r) ∧
    (∃ t : State, perform .reset s = .next t ∧ t.fault = none)

/-- R159: the transitions of the wait-for-key FSM. Running is left only by advance or step_back; AwaitingKey is left only
to Running, by any release or by reset; Faulted is left only to Running, by reset. -/
def Obligations.FsmTransitions : Prop :=
  ∀ (s t : State) (c : Command), perform c s = .next t →
    (s.fsm = .running → t.fsm ≠ .running → c = .advance ∨ c = .stepBack) ∧
    (∀ r, s.fsm = .awaitingKey r → t.fsm = .awaitingKey r ∨ t.fsm = .running ∧ ((∃ k, c = .release k) ∨ c = .reset)) ∧
    (∀ r, s.fsm = .awaitingKey r → (∃ k, c = .release k) → t.fsm = .running) ∧
    (s.fsm = .faulted → t.fsm = .faulted ∨ t.fsm = .running ∧ c = .reset) ∧
    (c = .reset → t.fsm = .running)

/-- R64, R150, R152 (the model's reading, log 5): every step of the machine answers a next state; a fatal condition is a
latched record, never a stop of the model. -/
def Obligations.EveryStepAnswersANextState : Prop :=
  ∀ s : State, ∃ t : State, step s = .next t

/-! ## Rules about all instructions -/

/-- R83, R151, R152, R154 (decision D16): an instruction that raises a fault writes nothing but the record, and the
record names the instruction: its address pc - 2 and its opcode. -/
def Obligations.FaultingInstructionWritesOnlyTheRecord : Prop :=
  ∀ (i : Instr) (s t : State), s.fault = none → exec i s = .next t → t.fault ≠ none →
    ∃ kind info, t = { s with fault := some ⟨kind, s.pc - 2, some (encode i), info⟩ }

/-- R150, R153: an instruction raises no fault but its own kind; an instruction with no fault condition raises none. -/
def Obligations.InstructionsRaiseOnlyTheirOwnFault : Prop :=
  ∀ (i : Instr) (s t : State) (r : FaultRecord), s.fault = none → exec i s = .next t → t.fault = some r →
    i.faultKind? = some r.kind

/-- R25 to R29, R86: which instructions write each component; no instruction touches keys, paused, image, FONT or the
host's side. -/
def Obligations.OnlyNamedInstructionsWriteEachComponent : Prop :=
  ∀ (i : Instr) (s t : State), exec i s = .next t →
    Frame [.regs, .index, .pc, .stack, .delay, .sound, .screen, .memory, .pending, .fault, .rng] s t ∧
    (t.pending = s.pending ∨ ∃ x, i = .waitKey x) ∧
    (t.stack = s.stack ∨ i = .ret ∨ ∃ nnn, i = .call nnn) ∧
    (t.I = s.I ∨ (∃ nnn, i = .setIndex nnn) ∨ (∃ x, i = .addIndex x) ∨ (∃ x, i = .fontGlyph x)) ∧
    (t.DT = s.DT ∨ ∃ x, i = .setDelay x) ∧
    (t.ST = s.ST ∨ ∃ x, i = .setSound x) ∧
    ((∀ c r, t.pixel c r = s.pixel c r) ∨ i = .clearScreen ∨ ∃ x y n, i = .draw x y n) ∧
    ((∀ a, t.readByte a = s.readByte a) ∨ (∃ x, i = .bcd x) ∨ (∃ x, i = .storeRegs x)) ∧
    (t.rngPos = s.rngPos ∨ ∃ x nn, i = .setVxRnd x nn)

/-- R22 (decisions D7, D9): a register an instruction does not name as its destination is unchanged; VF is written
implicitly only by 8xy4, 8xy5, 8xy6, 8xy7, 8xyE and Dxyn. -/
def Obligations.RegistersAreWrittenOnlyWhereNamed : Prop :=
  ∀ (i : Instr) (s t : State) (k : RegIx), exec i s = .next t → i.mayWrite k = false → t.reg k = s.reg k

/-- R33, R111 (decision D23; the free value of log 4): no instruction but RND reads the random source: from another RNG
position it does the same. -/
def Obligations.OnlyRndReadsTheRandomSource : Prop :=
  ∀ (i : Instr) (s t : State) (n : Nat), (∀ x nn, i ≠ .setVxRnd x nn) → exec i s = .next t →
    exec i { s with rngPos := n } = .next { t with rngPos := n }

/-- R30, R173 (decision D19): no transaction but is_paused, pause_or_resume and reset reads or writes the pause flag; in
particular advance does not test it. pause_or_resume inverts it and changes nothing else. -/
def Obligations.PauseFlagGatesNothing : Prop :=
  (∀ s : State, ∃ t, perform .pauseOrResume s = .next t ∧ t.paused = !s.paused ∧ Frame [.paused] s t) ∧
  ∀ (c : Command) (s t : State) (b : Bool), c ≠ .isPaused → c ≠ .pauseOrResume → c ≠ .reset →
    perform c s = .next t → perform c { s with paused := b } = .next { t with paused := b }

/-! ## Control flow (41_control_flow.md) -/

/-- R90: only the word 0x0000 is the no-op, and it changes nothing. -/
def Obligations.NopChangesNothing : Prop :=
  (∀ op : Word, decode op = .nop ↔ op = 0x0000) ∧ ∀ s : State, exec .nop s = .next s

/-- R91: RET pops the last return address into pc; with an empty stack it latches StackUnderflow with A as info and pc
stays at A + 2. -/
def Obligations.RetPopsOrLatchesUnderflow : Prop :=
  (∀ (s : State) (rest : List Word) (w : Word), s.stack = rest ++ [w] →
    ∃ t, exec .ret s = .next t ∧ t.pc = w ∧ t.stack = rest ∧ Frame [.pc, .stack] s t) ∧
  (∀ s : State, s.fault = none → s.stack = [] →
    exec .ret s = .next { s with fault := some ⟨.stackUnderflow, s.pc - 2, some 0x00EE, (s.pc - 2).toNat⟩ })

/-- R93: CALL pushes A + 2 and jumps; with 16 entries it latches StackOverflow with A as info and pushes nothing. -/
def Obligations.CallPushesOrLatchesOverflow : Prop :=
  (∀ (s : State) (nnn : Addr12), s.stack.length < 16 →
    ∃ t, exec (.call nnn) s = .next t ∧ t.stack = s.stack ++ [s.pc] ∧ t.pc.toNat = nnn.toNat ∧
      Frame [.pc, .stack] s t) ∧
  (∀ (s : State) (nnn : Addr12), s.fault = none → s.stack.length = 16 →
    exec (.call nnn) s =
      .next { s with fault := some ⟨.stackOverflow, s.pc - 2, some (0x2#4 ++ nnn), (s.pc - 2).toNat⟩ })

/-- R92, R98 (decision D10: the sum is not masked): 1nnn is the jump, and it replaces pc by nnn zero-extended; Bnnn
replaces it by nnn + V0. -/
def Obligations.JumpsReplacePc : Prop :=
  ∀ nnn : Addr12, decode (0x1#4 ++ nnn) = .jump nnn ∧ decode (0xB#4 ++ nnn) = .jumpV0 nnn ∧
    ∀ s : State,
      (∃ t, exec (.jump nnn) s = .next t ∧ t.pc.toNat = nnn.toNat ∧ Frame [.pc] s t) ∧
      (∃ t, exec (.jumpV0 nnn) s = .next t ∧ t.pc.toNat = nnn.toNat + (s.reg 0).toNat ∧ Frame [.pc] s t)

/-- R94, R95: 3xnn and 4xnn are the immediate skips; they add 2 to pc exactly when Vx equals nn, and exactly when
it does not. -/
def Obligations.ImmediateSkips : Prop :=
  ∀ (x : RegIx) (nn : Byte),
    decode (0x3#4 ++ regBits x ++ nn) = .skipEqImm x nn ∧
    decode (0x4#4 ++ regBits x ++ nn) = .skipNeImm x nn ∧
    ∀ s : State,
      (∃ t, exec (.skipEqImm x nn) s = .next t ∧ t.pc = (if s.reg x = nn then s.pc + 2 else s.pc) ∧
        Frame [.pc] s t) ∧
      (∃ t, exec (.skipNeImm x nn) s = .next t ∧ t.pc = (if s.reg x = nn then s.pc else s.pc + 2) ∧
        Frame [.pc] s t)

/-- R96, R97, whole: 5xy0 and 9xy0 are the register skips, and with another last nibble the word is Unknown; they add 2
to pc exactly when Vx equals Vy, and exactly when it does not. -/
def Obligations.RegisterSkips : Prop :=
  ∀ x y : RegIx,
    decode (0x5#4 ++ regBits x ++ regBits y ++ 0x0#4) = .skipEqReg x y ∧
    decode (0x9#4 ++ regBits x ++ regBits y ++ 0x0#4) = .skipNeReg x y ∧
    (∀ n : BitVec 4, n ≠ 0 →
      decode (0x5#4 ++ regBits x ++ regBits y ++ n) =
        .unknown (0x5#4 ++ regBits x ++ regBits y ++ n) ∧
      decode (0x9#4 ++ regBits x ++ regBits y ++ n) =
        .unknown (0x9#4 ++ regBits x ++ regBits y ++ n)) ∧
    ∀ s : State,
      (∃ t, exec (.skipEqReg x y) s = .next t ∧ t.pc = (if s.reg x = s.reg y then s.pc + 2 else s.pc) ∧
        Frame [.pc] s t) ∧
      (∃ t, exec (.skipNeReg x y) s = .next t ∧ t.pc = (if s.reg x = s.reg y then s.pc else s.pc + 2) ∧
        Frame [.pc] s t)

/-- R82: executing Unknown(op) latches UnknownOpcode with the opcode as info, and writes nothing else. -/
def Obligations.UnknownLatches : Prop :=
  ∀ (s : State) (op : Word), s.fault = none →
    exec (.unknown op) s = .next { s with fault := some ⟨.unknownOpcode, s.pc - 2, some op, op.toNat⟩ }

/-! ## Registers and ALU (42_register_alu.md) -/

/-- R100, whole: 6xnn is the immediate load; Vx becomes nn, also when x is F, and nothing else changes. -/
def Obligations.LoadImmediateSetsVx : Prop :=
  ∀ (x : RegIx) (nn : Byte), decode (0x6#4 ++ regBits x ++ nn) = .setVxImm x nn ∧
    ∀ s : State, ∃ t, exec (.setVxImm x nn) s = .next t ∧ (∀ k, t.reg k = if k = x then nn else s.reg k) ∧
      Frame [.regs] s t

/-- R101 to R105 (decisions D6, D7: no flag): the immediate add modulo 256, the copy, and the bitwise operations bit by
bit; only Vx changes. -/
def Obligations.FlaglessWritersChangeOnlyVx : Prop :=
  ∀ (s : State) (x y : RegIx) (nn : Byte),
    (∃ t, exec (.addVxImm x nn) s = .next t ∧
      (∀ k, (t.reg k).toNat = if k = x then ((s.reg x).toNat + nn.toNat) % 256 else (s.reg k).toNat) ∧
      Frame [.regs] s t) ∧
    (∃ t, exec (.setVxVy x y) s = .next t ∧ (∀ k, t.reg k = if k = x then s.reg y else s.reg k) ∧
      Frame [.regs] s t) ∧
    (∃ t, exec (.orVxVy x y) s = .next t ∧
      (∀ j, (t.reg x).getLsbD j = ((s.reg x).getLsbD j || (s.reg y).getLsbD j)) ∧
      (∀ k, k ≠ x → t.reg k = s.reg k) ∧ Frame [.regs] s t) ∧
    (∃ t, exec (.andVxVy x y) s = .next t ∧
      (∀ j, (t.reg x).getLsbD j = ((s.reg x).getLsbD j && (s.reg y).getLsbD j)) ∧
      (∀ k, k ≠ x → t.reg k = s.reg k) ∧ Frame [.regs] s t) ∧
    (∃ t, exec (.xorVxVy x y) s = .next t ∧
      (∀ j, (t.reg x).getLsbD j = ((s.reg x).getLsbD j != (s.reg y).getLsbD j)) ∧
      (∀ k, k ≠ x → t.reg k = s.reg k) ∧ Frame [.regs] s t)

/-- R106, R85 (decisions D6, D8): the wrapping add; VF, written last, is the carry. -/
def Obligations.AddSetsCarry : Prop :=
  ∀ (s : State) (x y : RegIx), ∃ t, exec (.addVxVy x y) s = .next t ∧
    (∀ k, (t.reg k).toNat =
      if k = 15 then (if 256 ≤ (s.reg x).toNat + (s.reg y).toNat then 1 else 0)
      else if k = x then ((s.reg x).toNat + (s.reg y).toNat) % 256
      else (s.reg k).toNat) ∧
    Frame [.regs] s t

/-- R107, R109, R85 (decisions D6, D8): Vx - Vy and Vy - Vx modulo 256; VF, written last, is 1 when no borrow occurred. -/
def Obligations.SubtractsSetNotBorrow : Prop :=
  ∀ (s : State) (x y : RegIx),
    (∃ t, exec (.subVxVy x y) s = .next t ∧
      (∀ k, (t.reg k).toNat =
        if k = 15 then (if (s.reg y).toNat ≤ (s.reg x).toNat then 1 else 0)
        else if k = x then ((s.reg x).toNat + 256 - (s.reg y).toNat) % 256
        else (s.reg k).toNat) ∧
      Frame [.regs] s t) ∧
    (∃ t, exec (.subVyVx x y) s = .next t ∧
      (∀ k, (t.reg k).toNat =
        if k = 15 then (if (s.reg x).toNat ≤ (s.reg y).toNat then 1 else 0)
        else if k = x then ((s.reg y).toNat + 256 - (s.reg x).toNat) % 256
        else (s.reg k).toNat) ∧
      Frame [.regs] s t)

/-- R108, R110, R85 (decisions D6, D8): the shifts of Vy by one into Vx; VF, written last, is the bit shifted out. -/
def Obligations.ShiftsSetTheBitShiftedOut : Prop :=
  ∀ (s : State) (x y : RegIx),
    (∃ t, exec (.rShiftVx x y) s = .next t ∧
      (∀ k, (t.reg k).toNat =
        if k = 15 then (s.reg y).toNat % 2
        else if k = x then (s.reg y).toNat / 2
        else (s.reg k).toNat) ∧
      Frame [.regs] s t) ∧
    (∃ t, exec (.lShiftVx x y) s = .next t ∧
      (∀ k, (t.reg k).toNat =
        if k = 15 then (s.reg y).toNat / 128
        else if k = x then (s.reg y).toNat * 2 % 256
        else (s.reg k).toNat) ∧
      Frame [.regs] s t)

/-- R111, R13 (decision D23; the free value of log 4): RND draws exactly one value, whatever nn is, and Vx is the value
AND nn: its bits outside nn are 0. -/
def Obligations.RndDrawsOneMaskedByte : Prop :=
  ∀ (s : State) (x : RegIx) (nn : Byte), ∃ t, exec (.setVxRnd x nn) s = .next t ∧
    (∀ j, (t.reg x).getLsbD j = ((Config.rng s.rngPos).getLsbD j && nn.getLsbD j)) ∧
    (∀ k, k ≠ x → t.reg k = s.reg k) ∧ t.rngPos = s.rngPos + 1 ∧ Frame [.regs, .rng] s t

/-! ## Index register and memory (43_index_memory.md) -/

/-- R120, whole: Annn loads I with nnn zero-extended, which is a valid address; nothing else changes. -/
def Obligations.SetIndexLoadsTheAddress : Prop :=
  ∀ nnn : Addr12, decode (0xA#4 ++ nnn) = .setIndex nnn ∧
    ∀ s : State, ∃ t, exec (.setIndex nnn) s = .next t ∧ t.I.toNat = nnn.toNat ∧ t.I.toNat ≤ 0xFFF ∧ Frame [.index] s t

/-- R121, R122 (decisions D9, D11): I becomes I + Vx modulo 2^16, and Vx·5 with no mask; nothing else changes, VF
included. -/
def Obligations.IndexArithmetic : Prop :=
  ∀ (s : State) (x : RegIx),
    (∃ t, exec (.addIndex x) s = .next t ∧ t.I.toNat = (s.I.toNat + (s.reg x).toNat) % 65536 ∧ Frame [.index] s t) ∧
    (∃ t, exec (.fontGlyph x) s = .next t ∧ t.I.toNat = (s.reg x).toNat * 5 ∧ Frame [.index] s t)

/-- R42, R43: MemRead and MemWrite of one byte at a natural number a: inside memory the byte is read, or written
there and nowhere else; outside, DataOutOfRange is due with a itself, and nothing is written. -/
def Obligations.SingleByteAccessIsBoundsChecked : Prop :=
  ∀ (s : State) (a : Nat) (v : Byte),
    (a < 4096 → s.loadBytes a 1 = .ok [s.readByte a]) ∧
    (4096 ≤ a → s.loadBytes a 1 = .error a) ∧
    (a < 4096 → ∃ t, s.storeBytes a [v] = .ok t ∧ (∀ b, t.readByte b = if b = a then v else s.readByte b) ∧
      Frame [.memory] s t) ∧
    (4096 ≤ a → s.storeBytes a [v] = .error a)

/-- R123 (conflict C2): BCD stores the hundreds, tens and units of Vx at I, I+1, I+2 and nothing else. -/
def Obligations.BcdStoresThreeDigits : Prop :=
  ∀ (s : State) (x : RegIx), s.I.toNat + 2 < 4096 →
    ∃ t, exec (.bcd x) s = .next t ∧
      (t.readByte s.I.toNat).toNat = (s.reg x).toNat / 100 ∧
      (t.readByte (s.I.toNat + 1)).toNat = (s.reg x).toNat / 10 % 10 ∧
      (t.readByte (s.I.toNat + 2)).toNat = (s.reg x).toNat % 10 ∧
      (∀ a, a < s.I.toNat ∨ s.I.toNat + 2 < a → t.readByte a = s.readByte a) ∧
      Frame [.memory] s t

/-- R124: the store of V0..Vx, inclusive, to I.. and nothing else; I is unchanged. -/
def Obligations.StoreRegsCopiesTheRange : Prop :=
  ∀ (s : State) (x : RegIx), s.I.toNat + x.val < 4096 →
    ∃ t, exec (.storeRegs x) s = .next t ∧
      (∀ k : RegIx, k ≤ x → t.readByte (s.I.toNat + k.val) = s.reg k) ∧
      (∀ a, a < s.I.toNat ∨ s.I.toNat + x.val < a → t.readByte a = s.readByte a) ∧
      Frame [.memory] s t

/-- R125: the load of V0..Vx, inclusive, from I..; the other registers, I and all of memory are unchanged. -/
def Obligations.LoadRegsCopiesTheRange : Prop :=
  ∀ (s : State) (x : RegIx), s.I.toNat + x.val < 4096 →
    ∃ t, exec (.loadRegs x) s = .next t ∧
      (∀ k : RegIx, t.reg k = if k ≤ x then s.readByte (s.I.toNat + k.val) else s.reg k) ∧
      Frame [.regs] s t

/-- R48, R123 to R125, R131 (decision D5): an access that reaches past 0xFFF latches DataOutOfRange with the lowest
out-of-range address max(I, 4096), and writes nothing else. -/
def Obligations.DataPastMemoryLatches : Prop :=
  ∀ (s : State), s.fault = none →
    (∀ x : RegIx, 4096 ≤ s.I.toNat + 2 → exec (.bcd x) s =
      .next { s with fault := some ⟨.dataOutOfRange, s.pc - 2, some (encode (.bcd x)), max s.I.toNat 4096⟩ }) ∧
    (∀ x : RegIx, 4096 ≤ s.I.toNat + x.val → exec (.storeRegs x) s =
      .next { s with fault := some ⟨.dataOutOfRange, s.pc - 2, some (encode (.storeRegs x)), max s.I.toNat 4096⟩ }) ∧
    (∀ x : RegIx, 4096 ≤ s.I.toNat + x.val → exec (.loadRegs x) s =
      .next { s with fault := some ⟨.dataOutOfRange, s.pc - 2, some (encode (.loadRegs x)), max s.I.toNat 4096⟩ }) ∧
    (∀ (x y : RegIx) (n : Fin 16), 0 < n.val → 4096 ≤ s.I.toNat + n.val - 1 → exec (.draw x y n) s =
      .next { s with fault := some ⟨.dataOutOfRange, s.pc - 2, some (encode (.draw x y n)), max s.I.toNat 4096⟩ })

/-- R124 and R125 together: what Fx55 stores, Fx65 brings back, whatever the registers were changed to in between. -/
def Obligations.StoredRegistersAreLoadedBack : Prop :=
  ∀ (s : State) (x : RegIx) (v : Regs), s.I.toNat + x.val < 4096 →
    ∃ t u, exec (.storeRegs x) s = .next t ∧ exec (.loadRegs x) { t with V := v } = .next u ∧
      (∀ k : RegIx, k ≤ x → u.reg k = s.reg k) ∧ (∀ k : RegIx, x < k → u.reg k = v[k.val])

/-- R53: a byte stored by Fx55 is what a fetch of its address sees at once: with I = pc the two bytes V0, V1 stored are
the next instruction's word. -/
def Obligations.StoredWordIsFetchedNext : Prop :=
  ∀ (s : State) (x : RegIx), s.ready → s.I = s.pc → 1 ≤ x.val → s.I.toNat + x.val < 4096 →
    ∃ t, exec (.storeRegs x) s = .next t ∧
      step t = exec (decode (wordOfBytes (s.reg 0) (s.reg 1))) { t with pc := s.pc + 2 }

/-! ## Display (44_display.md) -/

/-- R130, whole: 0x00E0 clears the screen: every pixel becomes false; nothing else changes. -/
def Obligations.ClearScreenTurnsEveryPixelOff : Prop :=
  decode 0x00E0 = .clearScreen ∧
    ∀ s : State, ∃ t, exec .clearScreen s = .next t ∧ (∀ c r, t.pixel c r = false) ∧ Frame [.screen] s t

/-- R131 (decisions D8, D14): DRW toggles exactly the pixels its set bits land on, each wrapped on its own, and VF,
written last, is 1 exactly when one of them was set; n = 0 is allowed everywhere. -/
def Obligations.DrawTogglesCoveredPixels : Prop :=
  ∀ (s : State) (x y : RegIx) (n : Fin 16), (n.val = 0 ∨ s.I.toNat + n.val ≤ 4096) →
    ∃ t, exec (.draw x y n) s = .next t ∧
      (∀ c r, s.spriteCovers (s.reg x).toNat (s.reg y).toNat n.val c r → t.pixel c r = !(s.pixel c r)) ∧
      (∀ c r, ¬ s.spriteCovers (s.reg x).toNat (s.reg y).toNat n.val c r → t.pixel c r = s.pixel c r) ∧
      ((∃ c r, s.spriteCovers (s.reg x).toNat (s.reg y).toNat n.val c r ∧ s.pixel c r = true) → t.reg 15 = 1) ∧
      (¬ (∃ c r, s.spriteCovers (s.reg x).toNat (s.reg y).toNat n.val c r ∧ s.pixel c r = true) → t.reg 15 = 0) ∧
      (∀ k : RegIx, k ≠ 15 → t.reg k = s.reg k) ∧
      Frame [.screen, .regs] s t

/-- R131's example, in general: a sprite drawn twice at the same place leaves the screen as it was. -/
def Obligations.DrawingTwiceRestoresTheScreen : Prop :=
  ∀ (s : State) (x y : RegIx) (n : Fin 16), x ≠ 15 → y ≠ 15 → (n.val = 0 ∨ s.I.toNat + n.val ≤ 4096) →
    ∃ t u, exec (.draw x y n) s = .next t ∧ exec (.draw x y n) t = .next u ∧
      ∀ c r, u.pixel c r = s.pixel c r

/-! ## Keys and timers (45_keys_timers.md, 60_exceptions.md) -/

/-- R140, R141 (decision D13): with V[x] = k < 16 the key skips add 2 to pc exactly when key k is down, and exactly when
it is up; with V[x] ≥ 16 they latch KeyOutOfRange with V[x] as info. -/
def Obligations.KeySkips : Prop :=
  (∀ (s : State) (x : RegIx) (k : KeyIx), (s.reg x).toNat = k.val →
    (∃ t, exec (.skipKeyDown x) s = .next t ∧ t.pc = (if s.key k = true then s.pc + 2 else s.pc) ∧ Frame [.pc] s t) ∧
    (∃ t, exec (.skipKeyUp x) s = .next t ∧ t.pc = (if s.key k = true then s.pc else s.pc + 2) ∧ Frame [.pc] s t)) ∧
  (∀ (s : State) (x : RegIx), s.fault = none → 16 ≤ (s.reg x).toNat →
    exec (.skipKeyDown x) s = .next
      { s with fault := some ⟨.keyOutOfRange, s.pc - 2, some (encode (.skipKeyDown x)), (s.reg x).toNat⟩ } ∧
    exec (.skipKeyUp x) s = .next
      { s with fault := some ⟨.keyOutOfRange, s.pc - 2, some (encode (.skipKeyUp x)), (s.reg x).toNat⟩ })

/-- R142, R144, R145 (decision D6): Vx becomes DT, DT becomes Vx, ST becomes Vx; nothing else changes, and no event is
emitted. -/
def Obligations.TimerInstructions : Prop :=
  ∀ (s : State) (x : RegIx),
    (∃ t, exec (.getDelay x) s = .next t ∧ (∀ k, t.reg k = if k = x then s.DT else s.reg k) ∧ Frame [.regs] s t) ∧
    (∃ t, exec (.setDelay x) s = .next t ∧ t.DT = s.reg x ∧ Frame [.delay] s t) ∧
    (∃ t, exec (.setSound x) s = .next t ∧ t.ST = s.reg x ∧ Frame [.sound] s t)

/-- R143, R165 (decision D17): Fx0A records x and writes nothing else; from then on advance changes nothing, a press ends
nothing, and the release of any key writes its number to Vx, lifts the wait and leaves pc at A + 2. -/
def Obligations.WaitKeyIsResolvedByRelease : Prop :=
  ∀ (s : State) (x : RegIx) (k : KeyIx), s.fault = none →
    ∃ t, exec (.waitKey x) s = .next t ∧ t.pending = some x ∧ Frame [.pending] s t ∧
      advance t = .next t ∧
      (∃ p, perform (.press k) t = .next p ∧ p.pending = some x) ∧
      (∃ u, perform (.release k) t = .next u ∧ u.pending = none ∧ u.key k = false ∧
        (∀ j, (u.reg j).toNat = if j = x then k.val else (s.reg j).toNat) ∧
        (∀ j, j ≠ k → u.key j = s.key j) ∧ Frame [.keys, .regs] s { u with pending := s.pending })

/-- R164, whole: press(k) sets keys[k] and nothing else; pressing again changes nothing more; a pending wait stays
pending. -/
def Obligations.PressSetsOneKey : Prop :=
  ∀ (s : State) (k : KeyIx), ∃ t, perform (.press k) s = .next t ∧
    (∀ j, t.key j = if j = k then true else s.key j) ∧ Frame [.keys] s t ∧ perform (.press k) t = .next t

/-- R165: with no wait pending, release(k) clears keys[k] and nothing else. -/
def Obligations.ReleaseWithoutWaitClearsOneKey : Prop :=
  ∀ (s : State) (k : KeyIx), s.pending = none → ∃ t, perform (.release k) s = .next t ∧
    (∀ j, t.key j = if j = k then false else s.key j) ∧ Frame [.keys] s t

/-- R160, R161, R27 (decision D26: in every state): one tick lowers each nonzero timer by one, with floor 0; StopSound is
emitted exactly when ST goes from 1 to 0; nothing else changes. -/
def Obligations.TickCountsDownAndStopsSound : Prop :=
  ∀ s : State, ∃ t, perform .tickTimers s = .next t ∧
    t.DT.toNat = s.DT.toNat - 1 ∧ t.ST.toNat = s.ST.toNat - 1 ∧
    t.outputs = s.outputs ++ (if s.ST = 1 then [.stopSound] else []) ∧
    Frame [.delay, .sound, .outputs] s t

/-! ## The host's ports, load and reset -/

/-- R162, R166, R168, R173, R174 (decisions D1, D18, D19; the output list is log 2): every read port hands out what the
state holds and changes nothing of the block; pixel (c, r) is element r·64 + c of the grid. -/
def Obligations.ReadPortsReportTheState : Prop :=
  ∀ s : State,
    (∀ k, perform (.isDown k) s = .next (s.emit (.keyDown (s.key k)))) ∧
    perform .snapshot s = .next (s.emit (.keySnapshot s.keys)) ∧
    perform .isPaused s = .next (s.emit (.pausedFlag s.paused)) ∧
    perform .readRegisters s = .next (s.emit (.registers s.V s.I s.pc s.DT s.ST)) ∧
    perform .readFault s = .next (s.emit (.faultRecord s.fault)) ∧
    perform .readPending s = .next (s.emit (.pendingSlot s.pending)) ∧
    perform .readSound s = .next (s.emit (.soundLevel (decide (s.ST.toNat ≠ 0)))) ∧
    (∃ grid : List Bool, perform .getScreen s = .next (s.emit (.pixels grid)) ∧ grid.length = 2048 ∧
      ∀ c r, grid[r.val * 64 + c.val]? = some (s.pixel c r)) ∧
    (∀ o, Frame [.outputs] s (s.emit o))

/-- R172 (decision D22): fetch_at decodes the word at a, or reports that it lies past memory; it latches and changes
nothing. -/
def Obligations.FetchAtPeeks : Prop :=
  ∀ (s : State) (a : Word),
    (a.toNat + 1 < 4096 → perform (.fetchAt a) s =
      .next (s.emit (.operation (decode (s.readByte a.toNat ++ s.readByte (a.toNat + 1)))))) ∧
    (4096 ≤ a.toNat + 1 → perform (.fetchAt a) s = .next (s.emit (.fetchAtOutOfRange a)))

/-- R171 (decision D21): step_back lowers pc by 4 and advances: it re-executes the word at pc - 4; while a key is awaited
only pc is lowered; below 4 the pc wraps and the fetch fault is latched there. -/
def Obligations.StepBackRewindsAndAdvances : Prop :=
  ∀ s : State, s.fault = none →
    (∀ r, s.pending = some r → perform .stepBack s = .next { s with pc := s.pc - 4 }) ∧
    (s.pending = none → 4 ≤ s.pc.toNat → s.pc.toNat - 3 < 4096 →
      perform .stepBack s =
        exec (decode (wordOfBytes (s.readByte (s.pc.toNat - 4)) (s.readByte (s.pc.toNat - 3))))
          { s with pc := s.pc - 2 }) ∧
    (s.pending = none → s.pc.toNat < 4 →
      perform .stepBack s = .next
        { s with pc := s.pc - 4, fault := some ⟨.fetchOutOfRange, s.pc - 4, none, s.pc.toNat + 65532⟩ })

/-- R182, R183 (decision D20): load rebuilds memory as zeros, FONT, image, records the image and changes nothing else; an
image over 3584 bytes is reported and changes nothing. -/
def Obligations.LoadRebuildsMemoryOrReports : Prop :=
  ∀ (s : State) (bytes : List Byte),
    (bytes.length ≤ 3584 → ∃ t, perform (.load bytes) s = .next t ∧
      (∀ (a : Nat) (h : a < 80), t.readByte a = s.font[a]) ∧
      (∀ (k : Nat) (h : k < bytes.length), t.readByte (0x200 + k) = bytes[k]) ∧
      (∀ a, 80 ≤ a → a < 0x200 ∨ 0x200 + bytes.length ≤ a → t.readByte a = 0) ∧
      t.image = bytes ∧ t.outputs = s.outputs ++ [.loadOk] ∧
      Frame [.memory, .image, .outputs] s t) ∧
    (3584 < bytes.length → perform (.load bytes) s = .next (s.emit (.loadError bytes.length)))

/-- R181 (decisions D15, D19, D31): reset gives every component its initial value and rebuilds memory with FONT and the
kept image; what is not the block's own is kept (logs 1 to 4). -/
def Obligations.ResetRestoresInitialValues : Prop :=
  ∀ s : State, ∃ t, perform .reset s = .next t ∧
    (∀ (a : Nat) (h : a < 80), t.readByte a = s.font[a]) ∧
    (∀ (k : Nat) (h : k < s.image.length), t.readByte (0x200 + k) = s.image[k]) ∧
    (∀ a, 80 ≤ a → a < 0x200 ∨ 0x200 + s.image.length ≤ a → t.readByte a = 0) ∧
    (∀ k, t.reg k = 0) ∧ t.I = 0 ∧ t.pc = 0x200 ∧ t.stack = [] ∧ t.DT = 0 ∧ t.ST = 0 ∧
    (∀ c r, t.pixel c r = false) ∧ (∀ k, t.key k = false) ∧ t.pending = none ∧ t.paused = false ∧ t.fault = none ∧
    Frame [.memory, .regs, .index, .pc, .stack, .delay, .sound, .screen, .keys, .pending, .paused, .fault] s t

/-- R180 (decisions D15, D19, D20, D31): the state after construction; the FONT bytes it holds are whatever its font
field says (log 3). -/
def Obligations.ConstructionState : Prop :=
  (∀ (a : Nat) (h : a < 80), State.reset.readByte a = State.reset.font[a]) ∧
  (∀ a, 80 ≤ a → State.reset.readByte a = 0) ∧
  (∀ k, State.reset.reg k = 0) ∧ State.reset.I = 0 ∧ State.reset.pc = 0x200 ∧ State.reset.stack = [] ∧
  State.reset.DT = 0 ∧ State.reset.ST = 0 ∧ (∀ c r, State.reset.pixel c r = false) ∧
  (∀ k, State.reset.key k = false) ∧ State.reset.pending = none ∧ State.reset.paused = false ∧
  State.reset.fault = none ∧ State.reset.image = []

/-- R184 (decisions D20, D32): the launch state: construction followed by load(P) equals load(P) followed by reset, and
it is Running with pc at 0x200. -/
def Obligations.LaunchStateIsLoadThenReset : Prop :=
  ∀ P : List Byte, P.length ≤ 3584 →
    ∃ t, perform (.load P) State.reset = .next t ∧ perform .reset t = .next t ∧ t.fsm = .running ∧ t.pc = 0x200

/-! ## Invariants -/

/-- The state after construction meets the invariant of the machine. -/
def Obligations.ResetMeetsTheInvariant : Prop := State.reset.Inv

/-- From every state that meets it, whatever the host's schedule, a step keeps the invariant: memory canonical, at most
16 stack entries (R25), an image of at most 3584 bytes (R32), never both a fault and a wait (R159), a record of the form
of R151. -/
def Obligations.StepKeepsTheInvariant : Prop :=
  ∀ s t : State, s.Inv → step s = .next t → t.Inv

/-- R23: "no instruction can set pc above 0x10FE": an advance keeps pc at or below 0x10FE, given that the return
addresses on the stack are at or below 0x1000, which it keeps too. -/
def Obligations.AdvanceKeepsPcBounded : Prop :=
  ∀ s t : State, s.pcBounded → advance s = .next t → t.pcBounded
end

