-- ==== Sys2Proof/Laws/Decode.lean ====
section
/-! SUPPORT. The fields of an encoded word (30_encoding.md R61, R62): each field of each format reads back what the
encoder put there. -/

namespace Sys2Proof

@[simp] theorem toFin_regBits (x : Fin 16) : (regBits x).toFin = x := rfl

/-! ## Format XNN -/

@[simp] theorem d1Field_encodeXNN (d : BitVec 4) (x : RegIx) (nn : Byte) : d1Field (encodeXNN d x nn) = d := by
  ext j hj
  simp only [d1Field, encodeXNN, BitVec.getElem_extractLsb', BitVec.getLsbD_append]
  simp [show ¬ (12 + j < 8) by omega, show ¬ (12 + j - 8 < 4) by omega, show 12 + j - 8 - 4 = j by omega, hj]

@[simp] theorem xField_encodeXNN (d : BitVec 4) (x : RegIx) (nn : Byte) : xField (encodeXNN d x nn) = x := by
  have : (encodeXNN d x nn).extractLsb' 8 4 = regBits x := by
    ext j hj
    simp only [encodeXNN, BitVec.getElem_extractLsb', BitVec.getLsbD_append]
    simp [show ¬ (8 + j < 8) by omega, hj]
  simp [xField, this]

@[simp] theorem nnField_encodeXNN (d : BitVec 4) (x : RegIx) (nn : Byte) : nnField (encodeXNN d x nn) = nn := by
  ext j hj
  simp only [nnField, encodeXNN, BitVec.getElem_extractLsb', BitVec.getLsbD_append]
  simp [hj]

/-! ## Formats XY and XYN -/

@[simp] theorem d1Field_encodeXYN (d : BitVec 4) (x y : RegIx) (n : BitVec 4) : d1Field (encodeXYN d x y n) = d := by
  ext j hj
  simp only [d1Field, encodeXYN, BitVec.getElem_extractLsb', BitVec.getLsbD_append]
  simp [show ¬ (12 + j < 4) by omega, show ¬ (12 + j - 4 < 4) by omega, show ¬ (12 + j - 4 - 4 < 4) by omega,
    show 12 + j - 4 - 4 - 4 = j by omega, BitVec.getLsbD_eq_getElem hj]

@[simp] theorem xField_encodeXYN (d : BitVec 4) (x y : RegIx) (n : BitVec 4) : xField (encodeXYN d x y n) = x := by
  have : (encodeXYN d x y n).extractLsb' 8 4 = regBits x := by
    ext j hj
    simp only [encodeXYN, BitVec.getElem_extractLsb', BitVec.getLsbD_append]
    simp [show ¬ (8 + j < 4) by omega, show ¬ (8 + j - 4 < 4) by omega, show 8 + j - 4 - 4 = j by omega, hj]
  simp [xField, this]

@[simp] theorem yField_encodeXYN (d : BitVec 4) (x y : RegIx) (n : BitVec 4) : yField (encodeXYN d x y n) = y := by
  have : (encodeXYN d x y n).extractLsb' 4 4 = regBits y := by
    ext j hj
    simp only [encodeXYN, BitVec.getElem_extractLsb', BitVec.getLsbD_append]
    simp [show ¬ (4 + j < 4) by omega, hj]
  simp [yField, this]

@[simp] theorem nField_encodeXYN (d : BitVec 4) (x y : RegIx) (n : BitVec 4) : nField (encodeXYN d x y n) = n.toFin := by
  have : (encodeXYN d x y n).extractLsb' 0 4 = n := by
    ext j hj
    simp only [encodeXYN, BitVec.getElem_extractLsb', BitVec.getLsbD_append]
    simp [hj]
  simp [nField, this]

/-! ## Format ADDR -/

@[simp] theorem d1Field_encodeAddr (d : BitVec 4) (nnn : Addr12) : d1Field (encodeAddr d nnn) = d := by
  ext j hj
  simp only [d1Field, encodeAddr, BitVec.getElem_extractLsb', BitVec.getLsbD_append]
  simp [show ¬ (12 + j < 12) by omega, BitVec.getLsbD_eq_getElem hj]

@[simp] theorem nnnField_encodeAddr (d : BitVec 4) (nnn : Addr12) : nnnField (encodeAddr d nnn) = nnn := by
  ext j hj
  simp only [nnnField, encodeAddr, BitVec.getElem_extractLsb', BitVec.getLsbD_append]
  simp [hj]

/-! ## Words and bytes -/

/-- The bytes of a word, high byte first, give the word back (R44). -/
theorem wordOfBytes_bytes (op : Word) : wordOfBytes (op.extractLsb' 8 8) (op.extractLsb' 0 8) = op := by
  apply BitVec.eq_of_getLsbD_eq
  intro j hj
  simp only [wordOfBytes, BitVec.getLsbD_append, BitVec.getLsbD_extractLsb']
  by_cases h : j < 8
  · simp [h]
  · simp [h, show j - 8 < 8 by omega, show 8 + (j - 8) = j by omega]

/-- Decoding the bytes of an instruction reads exactly its word. -/
theorem decodeBytes_encodeBytes (i : Instr) (rest : List Byte) :
    decodeBytes (encodeBytes i ++ rest) = .ok (decode (encode i), rest) := by
  simp [encodeBytes, bytesOfWord, decodeBytes, wordOfBytes_bytes]

end Sys2Proof
end

