-- ==== Sys2Proof/Laws/State.lean ====
section
/-! SUPPORT. One lemma per field per named update of the state (Machine/Ops.lean), and what each update does to the
reads of registers, keys, pixels and memory bytes, so that no later proof unfolds a record update. -/

namespace Sys2Proof.Machine

/-! ### setReg -/
@[simp] theorem State.setReg_mem (s : State) (x : RegIx) (b : Byte) : (s.setReg x b).mem = s.mem := rfl
@[simp] theorem State.setReg_V (s : State) (x : RegIx) (b : Byte) : (s.setReg x b).V = s.V.set x.val b := rfl
@[simp] theorem State.setReg_I (s : State) (x : RegIx) (b : Byte) : (s.setReg x b).I = s.I := rfl
@[simp] theorem State.setReg_pc (s : State) (x : RegIx) (b : Byte) : (s.setReg x b).pc = s.pc := rfl
@[simp] theorem State.setReg_stack (s : State) (x : RegIx) (b : Byte) : (s.setReg x b).stack = s.stack := rfl
@[simp] theorem State.setReg_DT (s : State) (x : RegIx) (b : Byte) : (s.setReg x b).DT = s.DT := rfl
@[simp] theorem State.setReg_ST (s : State) (x : RegIx) (b : Byte) : (s.setReg x b).ST = s.ST := rfl
@[simp] theorem State.setReg_screen (s : State) (x : RegIx) (b : Byte) : (s.setReg x b).screen = s.screen := rfl
@[simp] theorem State.setReg_keys (s : State) (x : RegIx) (b : Byte) : (s.setReg x b).keys = s.keys := rfl
@[simp] theorem State.setReg_pending (s : State) (x : RegIx) (b : Byte) : (s.setReg x b).pending = s.pending := rfl
@[simp] theorem State.setReg_paused (s : State) (x : RegIx) (b : Byte) : (s.setReg x b).paused = s.paused := rfl
@[simp] theorem State.setReg_fault (s : State) (x : RegIx) (b : Byte) : (s.setReg x b).fault = s.fault := rfl
@[simp] theorem State.setReg_image (s : State) (x : RegIx) (b : Byte) : (s.setReg x b).image = s.image := rfl
@[simp] theorem State.setReg_rngPos (s : State) (x : RegIx) (b : Byte) : (s.setReg x b).rngPos = s.rngPos := rfl
@[simp] theorem State.setReg_font (s : State) (x : RegIx) (b : Byte) : (s.setReg x b).font = s.font := rfl
@[simp] theorem State.setReg_schedule (s : State) (x : RegIx) (b : Byte) : (s.setReg x b).schedule = s.schedule := rfl
@[simp] theorem State.setReg_hostTail (s : State) (x : RegIx) (b : Byte) : (s.setReg x b).hostTail = s.hostTail := rfl
@[simp] theorem State.setReg_outputs (s : State) (x : RegIx) (b : Byte) : (s.setReg x b).outputs = s.outputs := rfl
@[simp] theorem State.key_setReg (s : State) (x : RegIx) (b : Byte) (j : KeyIx) : (s.setReg x b).key j = s.key j := rfl
@[simp] theorem State.pixel_setReg (s : State) (x : RegIx) (b : Byte) (c : Fin 64) (r' : Fin 32) : (s.setReg x b).pixel c r' = s.pixel c r' := rfl
@[simp] theorem State.readByte_setReg (s : State) (x : RegIx) (b : Byte) (i : Nat) : (s.setReg x b).readByte i = s.readByte i := rfl

/-! ### setRegs -/
@[simp] theorem State.setRegs_mem (s : State) (v : Regs) : (s.setRegs v).mem = s.mem := rfl
@[simp] theorem State.setRegs_V (s : State) (v : Regs) : (s.setRegs v).V = v := rfl
@[simp] theorem State.setRegs_I (s : State) (v : Regs) : (s.setRegs v).I = s.I := rfl
@[simp] theorem State.setRegs_pc (s : State) (v : Regs) : (s.setRegs v).pc = s.pc := rfl
@[simp] theorem State.setRegs_stack (s : State) (v : Regs) : (s.setRegs v).stack = s.stack := rfl
@[simp] theorem State.setRegs_DT (s : State) (v : Regs) : (s.setRegs v).DT = s.DT := rfl
@[simp] theorem State.setRegs_ST (s : State) (v : Regs) : (s.setRegs v).ST = s.ST := rfl
@[simp] theorem State.setRegs_screen (s : State) (v : Regs) : (s.setRegs v).screen = s.screen := rfl
@[simp] theorem State.setRegs_keys (s : State) (v : Regs) : (s.setRegs v).keys = s.keys := rfl
@[simp] theorem State.setRegs_pending (s : State) (v : Regs) : (s.setRegs v).pending = s.pending := rfl
@[simp] theorem State.setRegs_paused (s : State) (v : Regs) : (s.setRegs v).paused = s.paused := rfl
@[simp] theorem State.setRegs_fault (s : State) (v : Regs) : (s.setRegs v).fault = s.fault := rfl
@[simp] theorem State.setRegs_image (s : State) (v : Regs) : (s.setRegs v).image = s.image := rfl
@[simp] theorem State.setRegs_rngPos (s : State) (v : Regs) : (s.setRegs v).rngPos = s.rngPos := rfl
@[simp] theorem State.setRegs_font (s : State) (v : Regs) : (s.setRegs v).font = s.font := rfl
@[simp] theorem State.setRegs_schedule (s : State) (v : Regs) : (s.setRegs v).schedule = s.schedule := rfl
@[simp] theorem State.setRegs_hostTail (s : State) (v : Regs) : (s.setRegs v).hostTail = s.hostTail := rfl
@[simp] theorem State.setRegs_outputs (s : State) (v : Regs) : (s.setRegs v).outputs = s.outputs := rfl
@[simp] theorem State.key_setRegs (s : State) (v : Regs) (j : KeyIx) : (s.setRegs v).key j = s.key j := rfl
@[simp] theorem State.pixel_setRegs (s : State) (v : Regs) (c : Fin 64) (r' : Fin 32) : (s.setRegs v).pixel c r' = s.pixel c r' := rfl
@[simp] theorem State.readByte_setRegs (s : State) (v : Regs) (i : Nat) : (s.setRegs v).readByte i = s.readByte i := rfl

/-! ### setIndex -/
@[simp] theorem State.setIndex_mem (s : State) (w : Word) : (s.setIndex w).mem = s.mem := rfl
@[simp] theorem State.setIndex_V (s : State) (w : Word) : (s.setIndex w).V = s.V := rfl
@[simp] theorem State.setIndex_I (s : State) (w : Word) : (s.setIndex w).I = w := rfl
@[simp] theorem State.setIndex_pc (s : State) (w : Word) : (s.setIndex w).pc = s.pc := rfl
@[simp] theorem State.setIndex_stack (s : State) (w : Word) : (s.setIndex w).stack = s.stack := rfl
@[simp] theorem State.setIndex_DT (s : State) (w : Word) : (s.setIndex w).DT = s.DT := rfl
@[simp] theorem State.setIndex_ST (s : State) (w : Word) : (s.setIndex w).ST = s.ST := rfl
@[simp] theorem State.setIndex_screen (s : State) (w : Word) : (s.setIndex w).screen = s.screen := rfl
@[simp] theorem State.setIndex_keys (s : State) (w : Word) : (s.setIndex w).keys = s.keys := rfl
@[simp] theorem State.setIndex_pending (s : State) (w : Word) : (s.setIndex w).pending = s.pending := rfl
@[simp] theorem State.setIndex_paused (s : State) (w : Word) : (s.setIndex w).paused = s.paused := rfl
@[simp] theorem State.setIndex_fault (s : State) (w : Word) : (s.setIndex w).fault = s.fault := rfl
@[simp] theorem State.setIndex_image (s : State) (w : Word) : (s.setIndex w).image = s.image := rfl
@[simp] theorem State.setIndex_rngPos (s : State) (w : Word) : (s.setIndex w).rngPos = s.rngPos := rfl
@[simp] theorem State.setIndex_font (s : State) (w : Word) : (s.setIndex w).font = s.font := rfl
@[simp] theorem State.setIndex_schedule (s : State) (w : Word) : (s.setIndex w).schedule = s.schedule := rfl
@[simp] theorem State.setIndex_hostTail (s : State) (w : Word) : (s.setIndex w).hostTail = s.hostTail := rfl
@[simp] theorem State.setIndex_outputs (s : State) (w : Word) : (s.setIndex w).outputs = s.outputs := rfl
@[simp] theorem State.reg_setIndex (s : State) (w : Word) (y : RegIx) : (s.setIndex w).reg y = s.reg y := rfl
@[simp] theorem State.key_setIndex (s : State) (w : Word) (j : KeyIx) : (s.setIndex w).key j = s.key j := rfl
@[simp] theorem State.pixel_setIndex (s : State) (w : Word) (c : Fin 64) (r' : Fin 32) : (s.setIndex w).pixel c r' = s.pixel c r' := rfl
@[simp] theorem State.readByte_setIndex (s : State) (w : Word) (i : Nat) : (s.setIndex w).readByte i = s.readByte i := rfl

/-! ### setPc -/
@[simp] theorem State.setPc_mem (s : State) (w : Word) : (s.setPc w).mem = s.mem := rfl
@[simp] theorem State.setPc_V (s : State) (w : Word) : (s.setPc w).V = s.V := rfl
@[simp] theorem State.setPc_I (s : State) (w : Word) : (s.setPc w).I = s.I := rfl
@[simp] theorem State.setPc_pc (s : State) (w : Word) : (s.setPc w).pc = w := rfl
@[simp] theorem State.setPc_stack (s : State) (w : Word) : (s.setPc w).stack = s.stack := rfl
@[simp] theorem State.setPc_DT (s : State) (w : Word) : (s.setPc w).DT = s.DT := rfl
@[simp] theorem State.setPc_ST (s : State) (w : Word) : (s.setPc w).ST = s.ST := rfl
@[simp] theorem State.setPc_screen (s : State) (w : Word) : (s.setPc w).screen = s.screen := rfl
@[simp] theorem State.setPc_keys (s : State) (w : Word) : (s.setPc w).keys = s.keys := rfl
@[simp] theorem State.setPc_pending (s : State) (w : Word) : (s.setPc w).pending = s.pending := rfl
@[simp] theorem State.setPc_paused (s : State) (w : Word) : (s.setPc w).paused = s.paused := rfl
@[simp] theorem State.setPc_fault (s : State) (w : Word) : (s.setPc w).fault = s.fault := rfl
@[simp] theorem State.setPc_image (s : State) (w : Word) : (s.setPc w).image = s.image := rfl
@[simp] theorem State.setPc_rngPos (s : State) (w : Word) : (s.setPc w).rngPos = s.rngPos := rfl
@[simp] theorem State.setPc_font (s : State) (w : Word) : (s.setPc w).font = s.font := rfl
@[simp] theorem State.setPc_schedule (s : State) (w : Word) : (s.setPc w).schedule = s.schedule := rfl
@[simp] theorem State.setPc_hostTail (s : State) (w : Word) : (s.setPc w).hostTail = s.hostTail := rfl
@[simp] theorem State.setPc_outputs (s : State) (w : Word) : (s.setPc w).outputs = s.outputs := rfl
@[simp] theorem State.reg_setPc (s : State) (w : Word) (y : RegIx) : (s.setPc w).reg y = s.reg y := rfl
@[simp] theorem State.key_setPc (s : State) (w : Word) (j : KeyIx) : (s.setPc w).key j = s.key j := rfl
@[simp] theorem State.pixel_setPc (s : State) (w : Word) (c : Fin 64) (r' : Fin 32) : (s.setPc w).pixel c r' = s.pixel c r' := rfl
@[simp] theorem State.readByte_setPc (s : State) (w : Word) (i : Nat) : (s.setPc w).readByte i = s.readByte i := rfl

/-! ### setStack -/
@[simp] theorem State.setStack_mem (s : State) (st : List Word) : (s.setStack st).mem = s.mem := rfl
@[simp] theorem State.setStack_V (s : State) (st : List Word) : (s.setStack st).V = s.V := rfl
@[simp] theorem State.setStack_I (s : State) (st : List Word) : (s.setStack st).I = s.I := rfl
@[simp] theorem State.setStack_pc (s : State) (st : List Word) : (s.setStack st).pc = s.pc := rfl
@[simp] theorem State.setStack_stack (s : State) (st : List Word) : (s.setStack st).stack = st := rfl
@[simp] theorem State.setStack_DT (s : State) (st : List Word) : (s.setStack st).DT = s.DT := rfl
@[simp] theorem State.setStack_ST (s : State) (st : List Word) : (s.setStack st).ST = s.ST := rfl
@[simp] theorem State.setStack_screen (s : State) (st : List Word) : (s.setStack st).screen = s.screen := rfl
@[simp] theorem State.setStack_keys (s : State) (st : List Word) : (s.setStack st).keys = s.keys := rfl
@[simp] theorem State.setStack_pending (s : State) (st : List Word) : (s.setStack st).pending = s.pending := rfl
@[simp] theorem State.setStack_paused (s : State) (st : List Word) : (s.setStack st).paused = s.paused := rfl
@[simp] theorem State.setStack_fault (s : State) (st : List Word) : (s.setStack st).fault = s.fault := rfl
@[simp] theorem State.setStack_image (s : State) (st : List Word) : (s.setStack st).image = s.image := rfl
@[simp] theorem State.setStack_rngPos (s : State) (st : List Word) : (s.setStack st).rngPos = s.rngPos := rfl
@[simp] theorem State.setStack_font (s : State) (st : List Word) : (s.setStack st).font = s.font := rfl
@[simp] theorem State.setStack_schedule (s : State) (st : List Word) : (s.setStack st).schedule = s.schedule := rfl
@[simp] theorem State.setStack_hostTail (s : State) (st : List Word) : (s.setStack st).hostTail = s.hostTail := rfl
@[simp] theorem State.setStack_outputs (s : State) (st : List Word) : (s.setStack st).outputs = s.outputs := rfl
@[simp] theorem State.reg_setStack (s : State) (st : List Word) (y : RegIx) : (s.setStack st).reg y = s.reg y := rfl
@[simp] theorem State.key_setStack (s : State) (st : List Word) (j : KeyIx) : (s.setStack st).key j = s.key j := rfl
@[simp] theorem State.pixel_setStack (s : State) (st : List Word) (c : Fin 64) (r' : Fin 32) : (s.setStack st).pixel c r' = s.pixel c r' := rfl
@[simp] theorem State.readByte_setStack (s : State) (st : List Word) (i : Nat) : (s.setStack st).readByte i = s.readByte i := rfl

/-! ### setDelay -/
@[simp] theorem State.setDelay_mem (s : State) (b : Byte) : (s.setDelay b).mem = s.mem := rfl
@[simp] theorem State.setDelay_V (s : State) (b : Byte) : (s.setDelay b).V = s.V := rfl
@[simp] theorem State.setDelay_I (s : State) (b : Byte) : (s.setDelay b).I = s.I := rfl
@[simp] theorem State.setDelay_pc (s : State) (b : Byte) : (s.setDelay b).pc = s.pc := rfl
@[simp] theorem State.setDelay_stack (s : State) (b : Byte) : (s.setDelay b).stack = s.stack := rfl
@[simp] theorem State.setDelay_DT (s : State) (b : Byte) : (s.setDelay b).DT = b := rfl
@[simp] theorem State.setDelay_ST (s : State) (b : Byte) : (s.setDelay b).ST = s.ST := rfl
@[simp] theorem State.setDelay_screen (s : State) (b : Byte) : (s.setDelay b).screen = s.screen := rfl
@[simp] theorem State.setDelay_keys (s : State) (b : Byte) : (s.setDelay b).keys = s.keys := rfl
@[simp] theorem State.setDelay_pending (s : State) (b : Byte) : (s.setDelay b).pending = s.pending := rfl
@[simp] theorem State.setDelay_paused (s : State) (b : Byte) : (s.setDelay b).paused = s.paused := rfl
@[simp] theorem State.setDelay_fault (s : State) (b : Byte) : (s.setDelay b).fault = s.fault := rfl
@[simp] theorem State.setDelay_image (s : State) (b : Byte) : (s.setDelay b).image = s.image := rfl
@[simp] theorem State.setDelay_rngPos (s : State) (b : Byte) : (s.setDelay b).rngPos = s.rngPos := rfl
@[simp] theorem State.setDelay_font (s : State) (b : Byte) : (s.setDelay b).font = s.font := rfl
@[simp] theorem State.setDelay_schedule (s : State) (b : Byte) : (s.setDelay b).schedule = s.schedule := rfl
@[simp] theorem State.setDelay_hostTail (s : State) (b : Byte) : (s.setDelay b).hostTail = s.hostTail := rfl
@[simp] theorem State.setDelay_outputs (s : State) (b : Byte) : (s.setDelay b).outputs = s.outputs := rfl
@[simp] theorem State.reg_setDelay (s : State) (b : Byte) (y : RegIx) : (s.setDelay b).reg y = s.reg y := rfl
@[simp] theorem State.key_setDelay (s : State) (b : Byte) (j : KeyIx) : (s.setDelay b).key j = s.key j := rfl
@[simp] theorem State.pixel_setDelay (s : State) (b : Byte) (c : Fin 64) (r' : Fin 32) : (s.setDelay b).pixel c r' = s.pixel c r' := rfl
@[simp] theorem State.readByte_setDelay (s : State) (b : Byte) (i : Nat) : (s.setDelay b).readByte i = s.readByte i := rfl

/-! ### setSound -/
@[simp] theorem State.setSound_mem (s : State) (b : Byte) : (s.setSound b).mem = s.mem := rfl
@[simp] theorem State.setSound_V (s : State) (b : Byte) : (s.setSound b).V = s.V := rfl
@[simp] theorem State.setSound_I (s : State) (b : Byte) : (s.setSound b).I = s.I := rfl
@[simp] theorem State.setSound_pc (s : State) (b : Byte) : (s.setSound b).pc = s.pc := rfl
@[simp] theorem State.setSound_stack (s : State) (b : Byte) : (s.setSound b).stack = s.stack := rfl
@[simp] theorem State.setSound_DT (s : State) (b : Byte) : (s.setSound b).DT = s.DT := rfl
@[simp] theorem State.setSound_ST (s : State) (b : Byte) : (s.setSound b).ST = b := rfl
@[simp] theorem State.setSound_screen (s : State) (b : Byte) : (s.setSound b).screen = s.screen := rfl
@[simp] theorem State.setSound_keys (s : State) (b : Byte) : (s.setSound b).keys = s.keys := rfl
@[simp] theorem State.setSound_pending (s : State) (b : Byte) : (s.setSound b).pending = s.pending := rfl
@[simp] theorem State.setSound_paused (s : State) (b : Byte) : (s.setSound b).paused = s.paused := rfl
@[simp] theorem State.setSound_fault (s : State) (b : Byte) : (s.setSound b).fault = s.fault := rfl
@[simp] theorem State.setSound_image (s : State) (b : Byte) : (s.setSound b).image = s.image := rfl
@[simp] theorem State.setSound_rngPos (s : State) (b : Byte) : (s.setSound b).rngPos = s.rngPos := rfl
@[simp] theorem State.setSound_font (s : State) (b : Byte) : (s.setSound b).font = s.font := rfl
@[simp] theorem State.setSound_schedule (s : State) (b : Byte) : (s.setSound b).schedule = s.schedule := rfl
@[simp] theorem State.setSound_hostTail (s : State) (b : Byte) : (s.setSound b).hostTail = s.hostTail := rfl
@[simp] theorem State.setSound_outputs (s : State) (b : Byte) : (s.setSound b).outputs = s.outputs := rfl
@[simp] theorem State.reg_setSound (s : State) (b : Byte) (y : RegIx) : (s.setSound b).reg y = s.reg y := rfl
@[simp] theorem State.key_setSound (s : State) (b : Byte) (j : KeyIx) : (s.setSound b).key j = s.key j := rfl
@[simp] theorem State.pixel_setSound (s : State) (b : Byte) (c : Fin 64) (r' : Fin 32) : (s.setSound b).pixel c r' = s.pixel c r' := rfl
@[simp] theorem State.readByte_setSound (s : State) (b : Byte) (i : Nat) : (s.setSound b).readByte i = s.readByte i := rfl

/-! ### setScreen -/
@[simp] theorem State.setScreen_mem (s : State) (g : Screen) : (s.setScreen g).mem = s.mem := rfl
@[simp] theorem State.setScreen_V (s : State) (g : Screen) : (s.setScreen g).V = s.V := rfl
@[simp] theorem State.setScreen_I (s : State) (g : Screen) : (s.setScreen g).I = s.I := rfl
@[simp] theorem State.setScreen_pc (s : State) (g : Screen) : (s.setScreen g).pc = s.pc := rfl
@[simp] theorem State.setScreen_stack (s : State) (g : Screen) : (s.setScreen g).stack = s.stack := rfl
@[simp] theorem State.setScreen_DT (s : State) (g : Screen) : (s.setScreen g).DT = s.DT := rfl
@[simp] theorem State.setScreen_ST (s : State) (g : Screen) : (s.setScreen g).ST = s.ST := rfl
@[simp] theorem State.setScreen_screen (s : State) (g : Screen) : (s.setScreen g).screen = g := rfl
@[simp] theorem State.setScreen_keys (s : State) (g : Screen) : (s.setScreen g).keys = s.keys := rfl
@[simp] theorem State.setScreen_pending (s : State) (g : Screen) : (s.setScreen g).pending = s.pending := rfl
@[simp] theorem State.setScreen_paused (s : State) (g : Screen) : (s.setScreen g).paused = s.paused := rfl
@[simp] theorem State.setScreen_fault (s : State) (g : Screen) : (s.setScreen g).fault = s.fault := rfl
@[simp] theorem State.setScreen_image (s : State) (g : Screen) : (s.setScreen g).image = s.image := rfl
@[simp] theorem State.setScreen_rngPos (s : State) (g : Screen) : (s.setScreen g).rngPos = s.rngPos := rfl
@[simp] theorem State.setScreen_font (s : State) (g : Screen) : (s.setScreen g).font = s.font := rfl
@[simp] theorem State.setScreen_schedule (s : State) (g : Screen) : (s.setScreen g).schedule = s.schedule := rfl
@[simp] theorem State.setScreen_hostTail (s : State) (g : Screen) : (s.setScreen g).hostTail = s.hostTail := rfl
@[simp] theorem State.setScreen_outputs (s : State) (g : Screen) : (s.setScreen g).outputs = s.outputs := rfl
@[simp] theorem State.reg_setScreen (s : State) (g : Screen) (y : RegIx) : (s.setScreen g).reg y = s.reg y := rfl
@[simp] theorem State.key_setScreen (s : State) (g : Screen) (j : KeyIx) : (s.setScreen g).key j = s.key j := rfl
@[simp] theorem State.readByte_setScreen (s : State) (g : Screen) (i : Nat) : (s.setScreen g).readByte i = s.readByte i := rfl

/-! ### setKey -/
@[simp] theorem State.setKey_mem (s : State) (k : KeyIx) (b : Bool) : (s.setKey k b).mem = s.mem := rfl
@[simp] theorem State.setKey_V (s : State) (k : KeyIx) (b : Bool) : (s.setKey k b).V = s.V := rfl
@[simp] theorem State.setKey_I (s : State) (k : KeyIx) (b : Bool) : (s.setKey k b).I = s.I := rfl
@[simp] theorem State.setKey_pc (s : State) (k : KeyIx) (b : Bool) : (s.setKey k b).pc = s.pc := rfl
@[simp] theorem State.setKey_stack (s : State) (k : KeyIx) (b : Bool) : (s.setKey k b).stack = s.stack := rfl
@[simp] theorem State.setKey_DT (s : State) (k : KeyIx) (b : Bool) : (s.setKey k b).DT = s.DT := rfl
@[simp] theorem State.setKey_ST (s : State) (k : KeyIx) (b : Bool) : (s.setKey k b).ST = s.ST := rfl
@[simp] theorem State.setKey_screen (s : State) (k : KeyIx) (b : Bool) : (s.setKey k b).screen = s.screen := rfl
@[simp] theorem State.setKey_keys (s : State) (k : KeyIx) (b : Bool) : (s.setKey k b).keys = s.keys.set k.val b := rfl
@[simp] theorem State.setKey_pending (s : State) (k : KeyIx) (b : Bool) : (s.setKey k b).pending = s.pending := rfl
@[simp] theorem State.setKey_paused (s : State) (k : KeyIx) (b : Bool) : (s.setKey k b).paused = s.paused := rfl
@[simp] theorem State.setKey_fault (s : State) (k : KeyIx) (b : Bool) : (s.setKey k b).fault = s.fault := rfl
@[simp] theorem State.setKey_image (s : State) (k : KeyIx) (b : Bool) : (s.setKey k b).image = s.image := rfl
@[simp] theorem State.setKey_rngPos (s : State) (k : KeyIx) (b : Bool) : (s.setKey k b).rngPos = s.rngPos := rfl
@[simp] theorem State.setKey_font (s : State) (k : KeyIx) (b : Bool) : (s.setKey k b).font = s.font := rfl
@[simp] theorem State.setKey_schedule (s : State) (k : KeyIx) (b : Bool) : (s.setKey k b).schedule = s.schedule := rfl
@[simp] theorem State.setKey_hostTail (s : State) (k : KeyIx) (b : Bool) : (s.setKey k b).hostTail = s.hostTail := rfl
@[simp] theorem State.setKey_outputs (s : State) (k : KeyIx) (b : Bool) : (s.setKey k b).outputs = s.outputs := rfl
@[simp] theorem State.reg_setKey (s : State) (k : KeyIx) (b : Bool) (y : RegIx) : (s.setKey k b).reg y = s.reg y := rfl
@[simp] theorem State.pixel_setKey (s : State) (k : KeyIx) (b : Bool) (c : Fin 64) (r' : Fin 32) : (s.setKey k b).pixel c r' = s.pixel c r' := rfl
@[simp] theorem State.readByte_setKey (s : State) (k : KeyIx) (b : Bool) (i : Nat) : (s.setKey k b).readByte i = s.readByte i := rfl

/-! ### setPending -/
@[simp] theorem State.setPending_mem (s : State) (p : Option RegIx) : (s.setPending p).mem = s.mem := rfl
@[simp] theorem State.setPending_V (s : State) (p : Option RegIx) : (s.setPending p).V = s.V := rfl
@[simp] theorem State.setPending_I (s : State) (p : Option RegIx) : (s.setPending p).I = s.I := rfl
@[simp] theorem State.setPending_pc (s : State) (p : Option RegIx) : (s.setPending p).pc = s.pc := rfl
@[simp] theorem State.setPending_stack (s : State) (p : Option RegIx) : (s.setPending p).stack = s.stack := rfl
@[simp] theorem State.setPending_DT (s : State) (p : Option RegIx) : (s.setPending p).DT = s.DT := rfl
@[simp] theorem State.setPending_ST (s : State) (p : Option RegIx) : (s.setPending p).ST = s.ST := rfl
@[simp] theorem State.setPending_screen (s : State) (p : Option RegIx) : (s.setPending p).screen = s.screen := rfl
@[simp] theorem State.setPending_keys (s : State) (p : Option RegIx) : (s.setPending p).keys = s.keys := rfl
@[simp] theorem State.setPending_pending (s : State) (p : Option RegIx) : (s.setPending p).pending = p := rfl
@[simp] theorem State.setPending_paused (s : State) (p : Option RegIx) : (s.setPending p).paused = s.paused := rfl
@[simp] theorem State.setPending_fault (s : State) (p : Option RegIx) : (s.setPending p).fault = s.fault := rfl
@[simp] theorem State.setPending_image (s : State) (p : Option RegIx) : (s.setPending p).image = s.image := rfl
@[simp] theorem State.setPending_rngPos (s : State) (p : Option RegIx) : (s.setPending p).rngPos = s.rngPos := rfl
@[simp] theorem State.setPending_font (s : State) (p : Option RegIx) : (s.setPending p).font = s.font := rfl
@[simp] theorem State.setPending_schedule (s : State) (p : Option RegIx) : (s.setPending p).schedule = s.schedule := rfl
@[simp] theorem State.setPending_hostTail (s : State) (p : Option RegIx) : (s.setPending p).hostTail = s.hostTail := rfl
@[simp] theorem State.setPending_outputs (s : State) (p : Option RegIx) : (s.setPending p).outputs = s.outputs := rfl
@[simp] theorem State.reg_setPending (s : State) (p : Option RegIx) (y : RegIx) : (s.setPending p).reg y = s.reg y := rfl
@[simp] theorem State.key_setPending (s : State) (p : Option RegIx) (j : KeyIx) : (s.setPending p).key j = s.key j := rfl
@[simp] theorem State.pixel_setPending (s : State) (p : Option RegIx) (c : Fin 64) (r' : Fin 32) : (s.setPending p).pixel c r' = s.pixel c r' := rfl
@[simp] theorem State.readByte_setPending (s : State) (p : Option RegIx) (i : Nat) : (s.setPending p).readByte i = s.readByte i := rfl

/-! ### setPaused -/
@[simp] theorem State.setPaused_mem (s : State) (b : Bool) : (s.setPaused b).mem = s.mem := rfl
@[simp] theorem State.setPaused_V (s : State) (b : Bool) : (s.setPaused b).V = s.V := rfl
@[simp] theorem State.setPaused_I (s : State) (b : Bool) : (s.setPaused b).I = s.I := rfl
@[simp] theorem State.setPaused_pc (s : State) (b : Bool) : (s.setPaused b).pc = s.pc := rfl
@[simp] theorem State.setPaused_stack (s : State) (b : Bool) : (s.setPaused b).stack = s.stack := rfl
@[simp] theorem State.setPaused_DT (s : State) (b : Bool) : (s.setPaused b).DT = s.DT := rfl
@[simp] theorem State.setPaused_ST (s : State) (b : Bool) : (s.setPaused b).ST = s.ST := rfl
@[simp] theorem State.setPaused_screen (s : State) (b : Bool) : (s.setPaused b).screen = s.screen := rfl
@[simp] theorem State.setPaused_keys (s : State) (b : Bool) : (s.setPaused b).keys = s.keys := rfl
@[simp] theorem State.setPaused_pending (s : State) (b : Bool) : (s.setPaused b).pending = s.pending := rfl
@[simp] theorem State.setPaused_paused (s : State) (b : Bool) : (s.setPaused b).paused = b := rfl
@[simp] theorem State.setPaused_fault (s : State) (b : Bool) : (s.setPaused b).fault = s.fault := rfl
@[simp] theorem State.setPaused_image (s : State) (b : Bool) : (s.setPaused b).image = s.image := rfl
@[simp] theorem State.setPaused_rngPos (s : State) (b : Bool) : (s.setPaused b).rngPos = s.rngPos := rfl
@[simp] theorem State.setPaused_font (s : State) (b : Bool) : (s.setPaused b).font = s.font := rfl
@[simp] theorem State.setPaused_schedule (s : State) (b : Bool) : (s.setPaused b).schedule = s.schedule := rfl
@[simp] theorem State.setPaused_hostTail (s : State) (b : Bool) : (s.setPaused b).hostTail = s.hostTail := rfl
@[simp] theorem State.setPaused_outputs (s : State) (b : Bool) : (s.setPaused b).outputs = s.outputs := rfl
@[simp] theorem State.reg_setPaused (s : State) (b : Bool) (y : RegIx) : (s.setPaused b).reg y = s.reg y := rfl
@[simp] theorem State.key_setPaused (s : State) (b : Bool) (j : KeyIx) : (s.setPaused b).key j = s.key j := rfl
@[simp] theorem State.pixel_setPaused (s : State) (b : Bool) (c : Fin 64) (r' : Fin 32) : (s.setPaused b).pixel c r' = s.pixel c r' := rfl
@[simp] theorem State.readByte_setPaused (s : State) (b : Bool) (i : Nat) : (s.setPaused b).readByte i = s.readByte i := rfl

/-! ### setRngPos -/
@[simp] theorem State.setRngPos_mem (s : State) (n : Nat) : (s.setRngPos n).mem = s.mem := rfl
@[simp] theorem State.setRngPos_V (s : State) (n : Nat) : (s.setRngPos n).V = s.V := rfl
@[simp] theorem State.setRngPos_I (s : State) (n : Nat) : (s.setRngPos n).I = s.I := rfl
@[simp] theorem State.setRngPos_pc (s : State) (n : Nat) : (s.setRngPos n).pc = s.pc := rfl
@[simp] theorem State.setRngPos_stack (s : State) (n : Nat) : (s.setRngPos n).stack = s.stack := rfl
@[simp] theorem State.setRngPos_DT (s : State) (n : Nat) : (s.setRngPos n).DT = s.DT := rfl
@[simp] theorem State.setRngPos_ST (s : State) (n : Nat) : (s.setRngPos n).ST = s.ST := rfl
@[simp] theorem State.setRngPos_screen (s : State) (n : Nat) : (s.setRngPos n).screen = s.screen := rfl
@[simp] theorem State.setRngPos_keys (s : State) (n : Nat) : (s.setRngPos n).keys = s.keys := rfl
@[simp] theorem State.setRngPos_pending (s : State) (n : Nat) : (s.setRngPos n).pending = s.pending := rfl
@[simp] theorem State.setRngPos_paused (s : State) (n : Nat) : (s.setRngPos n).paused = s.paused := rfl
@[simp] theorem State.setRngPos_fault (s : State) (n : Nat) : (s.setRngPos n).fault = s.fault := rfl
@[simp] theorem State.setRngPos_image (s : State) (n : Nat) : (s.setRngPos n).image = s.image := rfl
@[simp] theorem State.setRngPos_rngPos (s : State) (n : Nat) : (s.setRngPos n).rngPos = n := rfl
@[simp] theorem State.setRngPos_font (s : State) (n : Nat) : (s.setRngPos n).font = s.font := rfl
@[simp] theorem State.setRngPos_schedule (s : State) (n : Nat) : (s.setRngPos n).schedule = s.schedule := rfl
@[simp] theorem State.setRngPos_hostTail (s : State) (n : Nat) : (s.setRngPos n).hostTail = s.hostTail := rfl
@[simp] theorem State.setRngPos_outputs (s : State) (n : Nat) : (s.setRngPos n).outputs = s.outputs := rfl
@[simp] theorem State.reg_setRngPos (s : State) (n : Nat) (y : RegIx) : (s.setRngPos n).reg y = s.reg y := rfl
@[simp] theorem State.key_setRngPos (s : State) (n : Nat) (j : KeyIx) : (s.setRngPos n).key j = s.key j := rfl
@[simp] theorem State.pixel_setRngPos (s : State) (n : Nat) (c : Fin 64) (r' : Fin 32) : (s.setRngPos n).pixel c r' = s.pixel c r' := rfl
@[simp] theorem State.readByte_setRngPos (s : State) (n : Nat) (i : Nat) : (s.setRngPos n).readByte i = s.readByte i := rfl

/-! ### setSchedule -/
@[simp] theorem State.setSchedule_mem (s : State) (cs : List Command) : (s.setSchedule cs).mem = s.mem := rfl
@[simp] theorem State.setSchedule_V (s : State) (cs : List Command) : (s.setSchedule cs).V = s.V := rfl
@[simp] theorem State.setSchedule_I (s : State) (cs : List Command) : (s.setSchedule cs).I = s.I := rfl
@[simp] theorem State.setSchedule_pc (s : State) (cs : List Command) : (s.setSchedule cs).pc = s.pc := rfl
@[simp] theorem State.setSchedule_stack (s : State) (cs : List Command) : (s.setSchedule cs).stack = s.stack := rfl
@[simp] theorem State.setSchedule_DT (s : State) (cs : List Command) : (s.setSchedule cs).DT = s.DT := rfl
@[simp] theorem State.setSchedule_ST (s : State) (cs : List Command) : (s.setSchedule cs).ST = s.ST := rfl
@[simp] theorem State.setSchedule_screen (s : State) (cs : List Command) : (s.setSchedule cs).screen = s.screen := rfl
@[simp] theorem State.setSchedule_keys (s : State) (cs : List Command) : (s.setSchedule cs).keys = s.keys := rfl
@[simp] theorem State.setSchedule_pending (s : State) (cs : List Command) : (s.setSchedule cs).pending = s.pending := rfl
@[simp] theorem State.setSchedule_paused (s : State) (cs : List Command) : (s.setSchedule cs).paused = s.paused := rfl
@[simp] theorem State.setSchedule_fault (s : State) (cs : List Command) : (s.setSchedule cs).fault = s.fault := rfl
@[simp] theorem State.setSchedule_image (s : State) (cs : List Command) : (s.setSchedule cs).image = s.image := rfl
@[simp] theorem State.setSchedule_rngPos (s : State) (cs : List Command) : (s.setSchedule cs).rngPos = s.rngPos := rfl
@[simp] theorem State.setSchedule_font (s : State) (cs : List Command) : (s.setSchedule cs).font = s.font := rfl
@[simp] theorem State.setSchedule_schedule (s : State) (cs : List Command) : (s.setSchedule cs).schedule = cs := rfl
@[simp] theorem State.setSchedule_hostTail (s : State) (cs : List Command) : (s.setSchedule cs).hostTail = s.hostTail := rfl
@[simp] theorem State.setSchedule_outputs (s : State) (cs : List Command) : (s.setSchedule cs).outputs = s.outputs := rfl
@[simp] theorem State.reg_setSchedule (s : State) (cs : List Command) (y : RegIx) : (s.setSchedule cs).reg y = s.reg y := rfl
@[simp] theorem State.key_setSchedule (s : State) (cs : List Command) (j : KeyIx) : (s.setSchedule cs).key j = s.key j := rfl
@[simp] theorem State.pixel_setSchedule (s : State) (cs : List Command) (c : Fin 64) (r' : Fin 32) : (s.setSchedule cs).pixel c r' = s.pixel c r' := rfl
@[simp] theorem State.readByte_setSchedule (s : State) (cs : List Command) (i : Nat) : (s.setSchedule cs).readByte i = s.readByte i := rfl

/-! ### setHostTail -/
@[simp] theorem State.setHostTail_mem (s : State) (h : HostTail) : (s.setHostTail h).mem = s.mem := rfl
@[simp] theorem State.setHostTail_V (s : State) (h : HostTail) : (s.setHostTail h).V = s.V := rfl
@[simp] theorem State.setHostTail_I (s : State) (h : HostTail) : (s.setHostTail h).I = s.I := rfl
@[simp] theorem State.setHostTail_pc (s : State) (h : HostTail) : (s.setHostTail h).pc = s.pc := rfl
@[simp] theorem State.setHostTail_stack (s : State) (h : HostTail) : (s.setHostTail h).stack = s.stack := rfl
@[simp] theorem State.setHostTail_DT (s : State) (h : HostTail) : (s.setHostTail h).DT = s.DT := rfl
@[simp] theorem State.setHostTail_ST (s : State) (h : HostTail) : (s.setHostTail h).ST = s.ST := rfl
@[simp] theorem State.setHostTail_screen (s : State) (h : HostTail) : (s.setHostTail h).screen = s.screen := rfl
@[simp] theorem State.setHostTail_keys (s : State) (h : HostTail) : (s.setHostTail h).keys = s.keys := rfl
@[simp] theorem State.setHostTail_pending (s : State) (h : HostTail) : (s.setHostTail h).pending = s.pending := rfl
@[simp] theorem State.setHostTail_paused (s : State) (h : HostTail) : (s.setHostTail h).paused = s.paused := rfl
@[simp] theorem State.setHostTail_fault (s : State) (h : HostTail) : (s.setHostTail h).fault = s.fault := rfl
@[simp] theorem State.setHostTail_image (s : State) (h : HostTail) : (s.setHostTail h).image = s.image := rfl
@[simp] theorem State.setHostTail_rngPos (s : State) (h : HostTail) : (s.setHostTail h).rngPos = s.rngPos := rfl
@[simp] theorem State.setHostTail_font (s : State) (h : HostTail) : (s.setHostTail h).font = s.font := rfl
@[simp] theorem State.setHostTail_schedule (s : State) (h : HostTail) : (s.setHostTail h).schedule = s.schedule := rfl
@[simp] theorem State.setHostTail_hostTail (s : State) (h : HostTail) : (s.setHostTail h).hostTail = h := rfl
@[simp] theorem State.setHostTail_outputs (s : State) (h : HostTail) : (s.setHostTail h).outputs = s.outputs := rfl
@[simp] theorem State.reg_setHostTail (s : State) (h : HostTail) (y : RegIx) : (s.setHostTail h).reg y = s.reg y := rfl
@[simp] theorem State.key_setHostTail (s : State) (h : HostTail) (j : KeyIx) : (s.setHostTail h).key j = s.key j := rfl
@[simp] theorem State.pixel_setHostTail (s : State) (h : HostTail) (c : Fin 64) (r' : Fin 32) : (s.setHostTail h).pixel c r' = s.pixel c r' := rfl
@[simp] theorem State.readByte_setHostTail (s : State) (h : HostTail) (i : Nat) : (s.setHostTail h).readByte i = s.readByte i := rfl

/-! ### emit -/
@[simp] theorem State.emit_mem (s : State) (o : Output) : (s.emit o).mem = s.mem := rfl
@[simp] theorem State.emit_V (s : State) (o : Output) : (s.emit o).V = s.V := rfl
@[simp] theorem State.emit_I (s : State) (o : Output) : (s.emit o).I = s.I := rfl
@[simp] theorem State.emit_pc (s : State) (o : Output) : (s.emit o).pc = s.pc := rfl
@[simp] theorem State.emit_stack (s : State) (o : Output) : (s.emit o).stack = s.stack := rfl
@[simp] theorem State.emit_DT (s : State) (o : Output) : (s.emit o).DT = s.DT := rfl
@[simp] theorem State.emit_ST (s : State) (o : Output) : (s.emit o).ST = s.ST := rfl
@[simp] theorem State.emit_screen (s : State) (o : Output) : (s.emit o).screen = s.screen := rfl
@[simp] theorem State.emit_keys (s : State) (o : Output) : (s.emit o).keys = s.keys := rfl
@[simp] theorem State.emit_pending (s : State) (o : Output) : (s.emit o).pending = s.pending := rfl
@[simp] theorem State.emit_paused (s : State) (o : Output) : (s.emit o).paused = s.paused := rfl
@[simp] theorem State.emit_fault (s : State) (o : Output) : (s.emit o).fault = s.fault := rfl
@[simp] theorem State.emit_image (s : State) (o : Output) : (s.emit o).image = s.image := rfl
@[simp] theorem State.emit_rngPos (s : State) (o : Output) : (s.emit o).rngPos = s.rngPos := rfl
@[simp] theorem State.emit_font (s : State) (o : Output) : (s.emit o).font = s.font := rfl
@[simp] theorem State.emit_schedule (s : State) (o : Output) : (s.emit o).schedule = s.schedule := rfl
@[simp] theorem State.emit_hostTail (s : State) (o : Output) : (s.emit o).hostTail = s.hostTail := rfl
@[simp] theorem State.emit_outputs (s : State) (o : Output) : (s.emit o).outputs = s.outputs ++ [o] := rfl
@[simp] theorem State.reg_emit (s : State) (o : Output) (y : RegIx) : (s.emit o).reg y = s.reg y := rfl
@[simp] theorem State.key_emit (s : State) (o : Output) (j : KeyIx) : (s.emit o).key j = s.key j := rfl
@[simp] theorem State.pixel_emit (s : State) (o : Output) (c : Fin 64) (r' : Fin 32) : (s.emit o).pixel c r' = s.pixel c r' := rfl
@[simp] theorem State.readByte_emit (s : State) (o : Output) (i : Nat) : (s.emit o).readByte i = s.readByte i := rfl

/-! ### writeByte -/
@[simp] theorem State.writeByte_mem (s : State) (a : Nat) (v : Byte) : (s.writeByte a v).mem = Memory.write s.font s.mem a v := rfl
@[simp] theorem State.writeByte_V (s : State) (a : Nat) (v : Byte) : (s.writeByte a v).V = s.V := rfl
@[simp] theorem State.writeByte_I (s : State) (a : Nat) (v : Byte) : (s.writeByte a v).I = s.I := rfl
@[simp] theorem State.writeByte_pc (s : State) (a : Nat) (v : Byte) : (s.writeByte a v).pc = s.pc := rfl
@[simp] theorem State.writeByte_stack (s : State) (a : Nat) (v : Byte) : (s.writeByte a v).stack = s.stack := rfl
@[simp] theorem State.writeByte_DT (s : State) (a : Nat) (v : Byte) : (s.writeByte a v).DT = s.DT := rfl
@[simp] theorem State.writeByte_ST (s : State) (a : Nat) (v : Byte) : (s.writeByte a v).ST = s.ST := rfl
@[simp] theorem State.writeByte_screen (s : State) (a : Nat) (v : Byte) : (s.writeByte a v).screen = s.screen := rfl
@[simp] theorem State.writeByte_keys (s : State) (a : Nat) (v : Byte) : (s.writeByte a v).keys = s.keys := rfl
@[simp] theorem State.writeByte_pending (s : State) (a : Nat) (v : Byte) : (s.writeByte a v).pending = s.pending := rfl
@[simp] theorem State.writeByte_paused (s : State) (a : Nat) (v : Byte) : (s.writeByte a v).paused = s.paused := rfl
@[simp] theorem State.writeByte_fault (s : State) (a : Nat) (v : Byte) : (s.writeByte a v).fault = s.fault := rfl
@[simp] theorem State.writeByte_image (s : State) (a : Nat) (v : Byte) : (s.writeByte a v).image = s.image := rfl
@[simp] theorem State.writeByte_rngPos (s : State) (a : Nat) (v : Byte) : (s.writeByte a v).rngPos = s.rngPos := rfl
@[simp] theorem State.writeByte_font (s : State) (a : Nat) (v : Byte) : (s.writeByte a v).font = s.font := rfl
@[simp] theorem State.writeByte_schedule (s : State) (a : Nat) (v : Byte) : (s.writeByte a v).schedule = s.schedule := rfl
@[simp] theorem State.writeByte_hostTail (s : State) (a : Nat) (v : Byte) : (s.writeByte a v).hostTail = s.hostTail := rfl
@[simp] theorem State.writeByte_outputs (s : State) (a : Nat) (v : Byte) : (s.writeByte a v).outputs = s.outputs := rfl
@[simp] theorem State.reg_writeByte (s : State) (a : Nat) (v : Byte) (y : RegIx) : (s.writeByte a v).reg y = s.reg y := rfl
@[simp] theorem State.key_writeByte (s : State) (a : Nat) (v : Byte) (j : KeyIx) : (s.writeByte a v).key j = s.key j := rfl
@[simp] theorem State.pixel_writeByte (s : State) (a : Nat) (v : Byte) (c : Fin 64) (r' : Fin 32) : (s.writeByte a v).pixel c r' = s.pixel c r' := rfl

/-! ### latch -/
@[simp] theorem State.latch_mem (s : State) (r : FaultRecord) : (s.latch r).mem = s.mem := rfl
@[simp] theorem State.latch_V (s : State) (r : FaultRecord) : (s.latch r).V = s.V := rfl
@[simp] theorem State.latch_I (s : State) (r : FaultRecord) : (s.latch r).I = s.I := rfl
@[simp] theorem State.latch_pc (s : State) (r : FaultRecord) : (s.latch r).pc = s.pc := rfl
@[simp] theorem State.latch_stack (s : State) (r : FaultRecord) : (s.latch r).stack = s.stack := rfl
@[simp] theorem State.latch_DT (s : State) (r : FaultRecord) : (s.latch r).DT = s.DT := rfl
@[simp] theorem State.latch_ST (s : State) (r : FaultRecord) : (s.latch r).ST = s.ST := rfl
@[simp] theorem State.latch_screen (s : State) (r : FaultRecord) : (s.latch r).screen = s.screen := rfl
@[simp] theorem State.latch_keys (s : State) (r : FaultRecord) : (s.latch r).keys = s.keys := rfl
@[simp] theorem State.latch_pending (s : State) (r : FaultRecord) : (s.latch r).pending = s.pending := rfl
@[simp] theorem State.latch_paused (s : State) (r : FaultRecord) : (s.latch r).paused = s.paused := rfl
@[simp] theorem State.latch_fault (s : State) (r : FaultRecord) : (s.latch r).fault = (match s.fault with | none => some r | some old => some old) := rfl
@[simp] theorem State.latch_image (s : State) (r : FaultRecord) : (s.latch r).image = s.image := rfl
@[simp] theorem State.latch_rngPos (s : State) (r : FaultRecord) : (s.latch r).rngPos = s.rngPos := rfl
@[simp] theorem State.latch_font (s : State) (r : FaultRecord) : (s.latch r).font = s.font := rfl
@[simp] theorem State.latch_schedule (s : State) (r : FaultRecord) : (s.latch r).schedule = s.schedule := rfl
@[simp] theorem State.latch_hostTail (s : State) (r : FaultRecord) : (s.latch r).hostTail = s.hostTail := rfl
@[simp] theorem State.latch_outputs (s : State) (r : FaultRecord) : (s.latch r).outputs = s.outputs := rfl
@[simp] theorem State.reg_latch (s : State) (r : FaultRecord) (y : RegIx) : (s.latch r).reg y = s.reg y := rfl
@[simp] theorem State.key_latch (s : State) (r : FaultRecord) (j : KeyIx) : (s.latch r).key j = s.key j := rfl
@[simp] theorem State.pixel_latch (s : State) (r : FaultRecord) (c : Fin 64) (r' : Fin 32) : (s.latch r).pixel c r' = s.pixel c r' := rfl
@[simp] theorem State.readByte_latch (s : State) (r : FaultRecord) (i : Nat) : (s.latch r).readByte i = s.readByte i := rfl

/-! ### The written place itself -/

/-- Writing a register changes that register and no other. -/
@[simp] theorem State.reg_setReg (s : State) (x y : RegIx) (b : Byte) :
    (s.setReg x b).reg y = if y = x then b else s.reg y := by
  by_cases h : y = x
  · subst h; simp [State.reg]
  · have h' : x.val ≠ y.val := fun e => h (Fin.ext e.symm)
    simp [State.reg, State.setReg, h', h]

/-- Writing a key's state changes that key and no other. -/
@[simp] theorem State.key_setKey (s : State) (k j : KeyIx) (b : Bool) :
    (s.setKey k b).key j = if j = k then b else s.key j := by
  by_cases h : j = k
  · subst h; simp [State.key]
  · have h' : k.val ≠ j.val := fun e => h (Fin.ext e.symm)
    simp [State.key, State.setKey, h', h]

@[simp] theorem State.reg_setRegs (s : State) (v : Regs) (y : RegIx) : (s.setRegs v).reg y = v[y.val] := rfl

@[simp] theorem State.pixel_setScreen (s : State) (g : Screen) (c : Fin 64) (r : Fin 32) :
    (s.setScreen g).pixel c r = g[r.val][c.val] := rfl

/-- With nothing latched, the record is latched. -/
theorem State.latch_of_none {s : State} (h : s.fault = none) (r : FaultRecord) :
    s.latch r = { s with fault := some r } := by simp [State.latch, h]

/-- A latched record is never replaced (R152). -/
theorem State.latch_of_some {s : State} {old : FaultRecord} (h : s.fault = some old) (r : FaultRecord) :
    s.latch r = s := by
  cases s; simp_all [State.latch]

end Sys2Proof.Machine
end

