-- ==== Sys2Proof/Laws/Memory.lean ====
section
/-! SUPPORT. Memory (20_memory.md): a read after a write, the canonical form kept by every memory operation, memory
rebuilt from an image, and the bounds-checked ranges. -/

namespace Sys2Proof.Machine

/-! ## Listing and unlisting -/

theorem Memory.find_insert (m : Memory) (a b : Nat) (v : Byte) :
    Memory.find (Memory.insert m a v) b = if b = a then some v else Memory.find m b := by
  induction m with
  | nil => by_cases h : b = a <;> simp [Memory.insert, Memory.find, h, @eq_comm _ a b]
  | cons e rest ih =>
    obtain ⟨k, w⟩ := e
    simp only [Memory.insert]
    split
    · by_cases h : b = a
      · simp [Memory.find, h]
      · simp [Memory.find, h, Ne.symm h]
    · split
      · subst_vars
        by_cases h : b = k
        · simp [Memory.find, h]
        · simp [Memory.find, h, Ne.symm h]
      · simp only [Memory.find, ih]
        by_cases h : k = b
        · subst h; simp; omega
        · simp [h]

theorem Memory.find_erase (m : Memory) (a b : Nat) :
    Memory.find (Memory.erase m a) b = if b = a then none else Memory.find m b := by
  induction m with
  | nil => simp [Memory.erase, Memory.find]
  | cons e rest ih =>
    obtain ⟨k, w⟩ := e
    simp only [Memory.erase]
    split
    · rw [ih]
      by_cases h : b = a
      · simp [h]
      · have : k ≠ b := by omega
        simp [h, Memory.find, this]
    · simp only [Memory.find, ih]
      by_cases h : k = b
      · have : b ≠ a := by omega
        simp [h, this]
      · simp [h]

/-- A read after a write: the written byte at its address, the old one everywhere else. -/
theorem Memory.read_write (font : Font) (m : Memory) (a b : Nat) (v : Byte) :
    Memory.read font (Memory.write font m a v) b = if b = a then v else Memory.read font m b := by
  unfold Memory.write Memory.read
  split
  · rw [Memory.find_erase]
    by_cases h : b = a
    · subst h; simp [*]
    · simp [h]
  · rw [Memory.find_insert]
    by_cases h : b = a <;> simp [h]

/-! ## The canonical form -/

theorem Memory.wfFrom_mono {font : Font} {lo lo' : Nat} (h : lo' ≤ lo) {m : Memory}
    (hm : Memory.wfFrom font lo m = true) : Memory.wfFrom font lo' m = true := by
  cases m with
  | nil => rfl
  | cons e rest =>
    simp only [Memory.wfFrom, Bool.and_eq_true, decide_eq_true_eq] at hm ⊢
    exact ⟨⟨⟨by omega, hm.1.1.2⟩, hm.1.2⟩, hm.2⟩

theorem Memory.insert_wfFrom {font : Font} {a : Nat} {v : Byte} (ha : a < 4096)
    (hv : v ≠ Memory.background font a) {lo : Nat} {m : Memory} (hlo : lo ≤ a)
    (hm : Memory.wfFrom font lo m = true) : Memory.wfFrom font lo (Memory.insert m a v) = true := by
  induction m generalizing lo with
  | nil => simp [Memory.insert, Memory.wfFrom, *]
  | cons e rest ih =>
    obtain ⟨k, w⟩ := e
    simp only [Memory.wfFrom, Bool.and_eq_true, decide_eq_true_eq] at hm
    simp only [Memory.insert]
    split
    · simp only [Memory.wfFrom, Bool.and_eq_true, decide_eq_true_eq]
      exact ⟨⟨⟨hlo, ha⟩, hv⟩, ⟨⟨by omega, hm.1.1.2⟩, hm.1.2⟩, hm.2⟩
    · split
      · subst_vars
        simp only [Memory.wfFrom, Bool.and_eq_true, decide_eq_true_eq]
        exact ⟨⟨⟨hlo, ha⟩, hv⟩, hm.2⟩
      · simp only [Memory.wfFrom, Bool.and_eq_true, decide_eq_true_eq]
        exact ⟨hm.1, ih (by omega) hm.2⟩

theorem Memory.erase_wfFrom {font : Font} {a : Nat} {lo : Nat} {m : Memory}
    (hm : Memory.wfFrom font lo m = true) : Memory.wfFrom font lo (Memory.erase m a) = true := by
  induction m generalizing lo with
  | nil => rfl
  | cons e rest ih =>
    obtain ⟨k, w⟩ := e
    simp only [Memory.wfFrom, Bool.and_eq_true, decide_eq_true_eq] at hm
    simp only [Memory.erase]
    split
    · exact Memory.wfFrom_mono (by omega) (ih hm.2)
    · simp only [Memory.wfFrom, Bool.and_eq_true, decide_eq_true_eq]
      exact ⟨hm.1, ih hm.2⟩

/-- A write inside the 4096 bytes keeps the canonical form. -/
theorem Memory.write_wf {font : Font} {m : Memory} {a : Nat} (ha : a < 4096) (v : Byte)
    (hm : Memory.wf font m = true) : Memory.wf font (Memory.write font m a v) = true := by
  unfold Memory.write
  split
  · exact Memory.erase_wfFrom hm
  · exact Memory.insert_wfFrom ha (by assumption) (Nat.zero_le a) hm

/-- Memory after construction is in canonical form. -/
theorem Memory.reset_wf : Memory.wf State.reset.font State.reset.mem = true := rfl

theorem Memory.ofImage_wfFrom (font : Font) (a : Nat) (bs : List Byte) (h : a + bs.length ≤ 4096) :
    Memory.wfFrom font a (Memory.ofImage font a bs) = true := by
  induction bs generalizing a with
  | nil => rfl
  | cons b bs ih =>
    simp only [List.length_cons] at h
    simp only [Memory.ofImage]
    split
    · exact Memory.wfFrom_mono (by omega) (ih (a + 1) (by omega))
    · simp only [Memory.wfFrom, Bool.and_eq_true, decide_eq_true_eq]
      exact ⟨⟨⟨le_refl a, by simp only [Config.memSize]; omega⟩, by assumption⟩, ih (a + 1) (by omega)⟩

/-- Memory rebuilt from an image that fits is in canonical form. -/
theorem Memory.ofImage_wf (font : Font) (bs : List Byte) (h : bs.length ≤ 3584) :
    Memory.wf font (Memory.ofImage font Config.progBase bs) = true :=
  Memory.wfFrom_mono (Nat.zero_le _) (Memory.ofImage_wfFrom font _ bs (by simp only [Config.progBase]; omega))

theorem Memory.find_ofImage_lt (font : Font) (a : Nat) (bs : List Byte) {c : Nat} (h : c < a) :
    Memory.find (Memory.ofImage font a bs) c = none := by
  induction bs generalizing a with
  | nil => rfl
  | cons b bs ih =>
    simp only [Memory.ofImage]
    split
    · exact ih (a + 1) (by omega)
    · simp only [Memory.find, ih (a + 1) (by omega)]
      rw [if_neg (by omega)]

/-- A read of rebuilt memory: the image's byte inside the image, the reset contents elsewhere. -/
theorem Memory.read_ofImage (font : Font) (a : Nat) (bs : List Byte) (c : Nat) :
    Memory.read font (Memory.ofImage font a bs) c =
      if h : a ≤ c ∧ c - a < bs.length then bs[c - a]'h.2 else Memory.background font c := by
  induction bs generalizing a with
  | nil => simp [Memory.ofImage, Memory.read, Memory.find]
  | cons b bs ih =>
    have hcons : Memory.read font (Memory.ofImage font a (b :: bs)) c =
        if c = a then b else Memory.read font (Memory.ofImage font (a + 1) bs) c := by
      simp only [Memory.ofImage]
      split
      · by_cases h : c = a
        · subst h
          simp [Memory.read, Memory.find_ofImage_lt font (c + 1) bs (Nat.lt_succ_self c), *]
        · simp [h]
      · by_cases h : c = a
        · subst h; simp [Memory.read, Memory.find]
        · simp [Memory.read, Memory.find, h, Ne.symm h]
    rw [hcons, ih]
    by_cases h : c = a
    · subst h; simp
    · by_cases h1 : a + 1 ≤ c ∧ c - (a + 1) < bs.length
      · have h2 : a ≤ c ∧ c - a < (b :: bs).length := by simp only [List.length_cons]; omega
        have e : c - a = (c - (a + 1)) + 1 := by omega
        rw [if_neg h, dif_pos h1, dif_pos h2]
        simp only [e, List.getElem_cons_succ]
      · have h2 : ¬(a ≤ c ∧ c - a < (b :: bs).length) := by simp only [List.length_cons]; omega
        rw [if_neg h, dif_neg h1, dif_neg h2]

theorem Memory.background_font (font : Font) {a : Nat} (h : a < 80) : Memory.background font a = font[a] := by
  simp [Memory.background, h]

theorem Memory.background_zero (font : Font) {a : Nat} (h : 80 ≤ a) : Memory.background font a = 0 := by
  simp only [Memory.background, Config.fontSize]
  rw [dif_neg (by omega)]

/-! ## Reads and writes of the state's memory -/

@[simp] theorem State.readByte_writeByte (s : State) (a b : Nat) (v : Byte) :
    (s.writeByte a v).readByte b = if b = a then v else s.readByte b :=
  Memory.read_write s.font s.mem a b v

/-- Writing a range changes memory only. -/
theorem State.writeBytes_eq (s : State) (base : Nat) (bs : List Byte) :
    s.writeBytes base bs = { s with mem := (s.writeBytes base bs).mem } := by
  induction bs generalizing s base with
  | nil => rfl
  | cons b bs ih =>
    show State.writeBytes (s.writeByte base b) (base + 1) bs =
      { s with mem := (State.writeBytes (s.writeByte base b) (base + 1) bs).mem }
    rw [ih]; rfl

@[simp] theorem State.writeBytes_V (s : State) (base : Nat) (bs : List Byte) : (s.writeBytes base bs).V = s.V := by
  rw [State.writeBytes_eq]
@[simp] theorem State.writeBytes_I (s : State) (base : Nat) (bs : List Byte) : (s.writeBytes base bs).I = s.I := by
  rw [State.writeBytes_eq]
@[simp] theorem State.writeBytes_pc (s : State) (base : Nat) (bs : List Byte) : (s.writeBytes base bs).pc = s.pc := by
  rw [State.writeBytes_eq]
@[simp] theorem State.writeBytes_stack (s : State) (base : Nat) (bs : List Byte) : (s.writeBytes base bs).stack = s.stack := by
  rw [State.writeBytes_eq]
@[simp] theorem State.writeBytes_DT (s : State) (base : Nat) (bs : List Byte) : (s.writeBytes base bs).DT = s.DT := by
  rw [State.writeBytes_eq]
@[simp] theorem State.writeBytes_ST (s : State) (base : Nat) (bs : List Byte) : (s.writeBytes base bs).ST = s.ST := by
  rw [State.writeBytes_eq]
@[simp] theorem State.writeBytes_screen (s : State) (base : Nat) (bs : List Byte) : (s.writeBytes base bs).screen = s.screen := by
  rw [State.writeBytes_eq]
@[simp] theorem State.writeBytes_keys (s : State) (base : Nat) (bs : List Byte) : (s.writeBytes base bs).keys = s.keys := by
  rw [State.writeBytes_eq]
@[simp] theorem State.writeBytes_pending (s : State) (base : Nat) (bs : List Byte) : (s.writeBytes base bs).pending = s.pending := by
  rw [State.writeBytes_eq]
@[simp] theorem State.writeBytes_paused (s : State) (base : Nat) (bs : List Byte) : (s.writeBytes base bs).paused = s.paused := by
  rw [State.writeBytes_eq]
@[simp] theorem State.writeBytes_fault (s : State) (base : Nat) (bs : List Byte) : (s.writeBytes base bs).fault = s.fault := by
  rw [State.writeBytes_eq]
@[simp] theorem State.writeBytes_image (s : State) (base : Nat) (bs : List Byte) : (s.writeBytes base bs).image = s.image := by
  rw [State.writeBytes_eq]
@[simp] theorem State.writeBytes_rngPos (s : State) (base : Nat) (bs : List Byte) : (s.writeBytes base bs).rngPos = s.rngPos := by
  rw [State.writeBytes_eq]
@[simp] theorem State.writeBytes_font (s : State) (base : Nat) (bs : List Byte) : (s.writeBytes base bs).font = s.font := by
  rw [State.writeBytes_eq]
@[simp] theorem State.writeBytes_schedule (s : State) (base : Nat) (bs : List Byte) : (s.writeBytes base bs).schedule = s.schedule := by
  rw [State.writeBytes_eq]
@[simp] theorem State.writeBytes_hostTail (s : State) (base : Nat) (bs : List Byte) : (s.writeBytes base bs).hostTail = s.hostTail := by
  rw [State.writeBytes_eq]
@[simp] theorem State.writeBytes_outputs (s : State) (base : Nat) (bs : List Byte) : (s.writeBytes base bs).outputs = s.outputs := by
  rw [State.writeBytes_eq]

@[simp] theorem State.reg_writeBytes (s : State) (base : Nat) (bs : List Byte) (x : RegIx) :
    (s.writeBytes base bs).reg x = s.reg x := by simp [State.reg]

/-- A read after a range is written: the range's byte inside it, the old byte elsewhere. -/
theorem State.readByte_writeBytes (s : State) (base : Nat) (bs : List Byte) (a : Nat) :
    (s.writeBytes base bs).readByte a =
      if h : base ≤ a ∧ a - base < bs.length then bs[a - base]'h.2 else s.readByte a := by
  induction bs generalizing s base with
  | nil => simp [State.writeBytes]
  | cons b bs ih =>
    simp only [State.writeBytes, ih, State.readByte_writeByte]
    by_cases h : a = base
    · subst h; simp
    · by_cases h1 : base + 1 ≤ a ∧ a - (base + 1) < bs.length
      · have h2 : base ≤ a ∧ a - base < (b :: bs).length := by simp only [List.length_cons]; omega
        have e : a - base = (a - (base + 1)) + 1 := by omega
        rw [dif_pos h1, dif_pos h2]
        simp only [e, List.getElem_cons_succ]
      · have h2 : ¬(base ≤ a ∧ a - base < (b :: bs).length) := by simp only [List.length_cons]; omega
        rw [dif_neg h1, dif_neg h2, if_neg h]

/-- A range written inside the 4096 bytes keeps the canonical form. -/
theorem State.writeBytes_wf (s : State) (base : Nat) (bs : List Byte) (h : base + bs.length ≤ 4096)
    (hm : Memory.wf s.font s.mem = true) : Memory.wf s.font (s.writeBytes base bs).mem = true := by
  induction bs generalizing s base with
  | nil => exact hm
  | cons b bs ih =>
    simp only [List.length_cons] at h
    exact ih (s.writeByte base b) (base + 1) (by omega) (Memory.write_wf (by omega) b hm)

@[simp] theorem State.bytesAt_length (s : State) (base n : Nat) : (s.bytesAt base n).length = n := by
  induction n generalizing base with
  | zero => rfl
  | succ n ih => simp [State.bytesAt, ih]

@[simp] theorem State.bytesAt_getElem (s : State) (base n k : Nat) (h : k < (s.bytesAt base n).length) :
    (s.bytesAt base n)[k] = s.readByte (base + k) := by
  induction n generalizing base k with
  | zero => simp [State.bytesAt] at h
  | succ n ih =>
    cases k with
    | zero => rfl
    | succ k =>
      simp only [State.bytesAt, List.getElem_cons_succ, ih]
      congr 1; omega

/-! ## The bounds check (R48): what each range operation answers -/

theorem firstOutOfRange_eq_none {base len : Nat} (h : len = 0 ∨ base + len ≤ 4096) :
    firstOutOfRange base len = none := by simp [firstOutOfRange, h]

theorem firstOutOfRange_eq_some {base len : Nat} (h0 : 0 < len) (h : 4096 < base + len) :
    firstOutOfRange base len = some (max base 4096) := by
  simp only [firstOutOfRange, Config.memSize]
  rw [if_neg (by omega)]

/-- A range load either has all its addresses in memory and answers the bytes, or answers the lowest address outside. -/
theorem State.loadBytes_cases (s : State) (base len : Nat) :
    ((len = 0 ∨ base + len ≤ 4096) ∧ s.loadBytes base len = .ok (s.bytesAt base len)) ∨
    (0 < len ∧ 4096 < base + len ∧ s.loadBytes base len = .error (max base 4096)) := by
  by_cases h : len = 0 ∨ base + len ≤ 4096
  · exact .inl ⟨h, by simp [State.loadBytes, firstOutOfRange_eq_none h]⟩
  · have h0 : 0 < len := by omega
    have h1 : 4096 < base + len := by omega
    exact .inr ⟨h0, h1, by simp [State.loadBytes, firstOutOfRange_eq_some h0 h1]⟩

/-- A range store either has all its addresses in memory and writes them all, or writes nothing and answers the lowest
address outside. -/
theorem State.storeBytes_cases (s : State) (base : Nat) (bs : List Byte) :
    ((bs.length = 0 ∨ base + bs.length ≤ 4096) ∧ s.storeBytes base bs = .ok (s.writeBytes base bs)) ∨
    (0 < bs.length ∧ 4096 < base + bs.length ∧ s.storeBytes base bs = .error (max base 4096)) := by
  by_cases h : bs.length = 0 ∨ base + bs.length ≤ 4096
  · exact .inl ⟨h, by simp [State.storeBytes, firstOutOfRange_eq_none h]⟩
  · have h0 : 0 < bs.length := by omega
    have h1 : 4096 < base + bs.length := by omega
    exact .inr ⟨h0, h1, by simp [State.storeBytes, firstOutOfRange_eq_some h0 h1]⟩

/-- The fetch (R44): the big-endian word at pc, or none exactly when pc + 1 is past memory. -/
theorem State.fetch_eq_some {s : State} (h : s.pc.toNat + 1 < 4096) :
    s.fetch = some (wordOfBytes (s.readByte s.pc.toNat) (s.readByte (s.pc.toNat + 1))) := by
  simp [State.fetch, h]

theorem State.fetch_eq_none {s : State} (h : 4096 ≤ s.pc.toNat + 1) : s.fetch = none := by
  simp only [State.fetch, Config.memSize]
  rw [if_neg (by omega)]

end Sys2Proof.Machine
end

