-- ==== Sys2Proof/Laws/Display.lean ====
section
/-! SUPPORT. What the sprite fold of Dxyn does, pixel by pixel (44_display.md R131): every covered pixel toggles once,
every other pixel stays, and the collision bit says whether a covered pixel was set. -/

namespace Sys2Proof.Machine

/-- The pixel of a grid at column c, row r. -/
def Screen.at (g : Screen) (c : Fin 64) (r : Fin 32) : Bool := g[r.val][c.val]

theorem State.pixel_eq_at (s : State) (c : Fin 64) (r : Fin 32) : s.pixel c r = Screen.at s.screen c r := rfl

/-- A toggle inverts its own pixel and no other. -/
theorem togglePixel_at (px : Fin 64) (py : Fin 32) (acc : Screen × Bool) (c : Fin 64) (r : Fin 32) :
    Screen.at (togglePixel px py acc).1 c r = (Screen.at acc.1 c r ^^ decide (r = py ∧ c = px)) := by
  simp only [Screen.at, togglePixel]
  by_cases hr : r = py
  · subst hr
    by_cases hc : c = px
    · subst hc; simp
    · have hc' : px.val ≠ c.val := fun e => hc (Fin.ext e.symm)
      simp [hc, Vector.getElem_set_ne _ _ hc']
  · have hr' : py.val ≠ r.val := fun e => hr (Fin.ext e.symm)
    simp [hr, Vector.getElem_set_ne _ _ hr']

@[simp] theorem togglePixel_hit (px : Fin 64) (py : Fin 32) (acc : Screen × Bool) :
    (togglePixel px py acc).2 = (acc.2 || Screen.at acc.1 px py) := rfl

/-- The columns of a sprite row, over any columns that wrap to different pixels. -/
theorem foldl_drawBit (cx : Nat) (py : Fin 32) (b : Byte) (cols : List Nat)
    (hd : cols.Pairwise (fun i j => (cx + i) % 64 ≠ (cx + j) % 64)) (acc : Screen × Bool) :
    (∀ c r, Screen.at (cols.foldl (drawBit cx py b) acc).1 c r =
      (Screen.at acc.1 c r ^^
        decide (r = py ∧ ∃ col ∈ cols, b.getLsbD (7 - col) = true ∧ (cx + col) % 64 = c.val))) ∧
    ((cols.foldl (drawBit cx py b) acc).2 = true ↔
      acc.2 = true ∨ ∃ col ∈ cols, b.getLsbD (7 - col) = true ∧ Screen.at acc.1 (wrapColumn (cx + col)) py = true) := by
  induction cols generalizing acc with
  | nil => simp
  | cons col cols ih =>
    rw [List.pairwise_cons] at hd
    obtain ⟨hat, hhit⟩ := ih hd.2 (drawBit cx py b acc col)
    rw [List.foldl_cons]
    by_cases hb : b.getLsbD (7 - col) = true
    · have e : drawBit cx py b acc col = togglePixel (wrapColumn (cx + col)) py acc := by simp [drawBit, hb]
      rw [e] at hat hhit ⊢
      constructor
      · intro c r
        rw [hat, togglePixel_at, Bool.xor_assoc]
        congr 1
        by_cases hr : r = py
        · by_cases hc : (cx + col) % 64 = c.val
          · have hno : ¬ ∃ col' ∈ cols, b.getLsbD (7 - col') = true ∧ (cx + col') % 64 = c.val := by
              rintro ⟨col', hm, -, h'⟩
              exact hd.1 col' hm (by omega)
            have hc' : c = wrapColumn (cx + col) := Fin.ext hc.symm
            rw [decide_eq_true ⟨hr, hc'⟩, decide_eq_false (fun k => hno k.2),
              decide_eq_true ⟨hr, col, List.mem_cons_self, hb, hc⟩]
            rfl
          · have hc' : ¬ c = wrapColumn (cx + col) := fun h => hc (by rw [h]; rfl)
            simp [hr, hc', hc, List.mem_cons]
        · simp [hr]
      · rw [hhit, togglePixel_hit]
        have hat' : ∀ col' ∈ cols, Screen.at (togglePixel (wrapColumn (cx + col)) py acc).1 (wrapColumn (cx + col')) py =
            Screen.at acc.1 (wrapColumn (cx + col')) py := by
          intro col' hm
          rw [togglePixel_at]
          have : ¬ (wrapColumn (cx + col') = wrapColumn (cx + col)) := fun h =>
            hd.1 col' hm (congrArg Fin.val h).symm
          simp [this]
        constructor
        · rintro (h | ⟨col', hm, hb', h⟩)
          · rcases Bool.or_eq_true _ _ ▸ h with h | h
            · exact .inl h
            · exact .inr ⟨col, List.mem_cons_self, hb, h⟩
          · exact .inr ⟨col', List.mem_cons_of_mem _ hm, hb', by rw [← hat' col' hm]; exact h⟩
        · rintro (h | ⟨col', hm, hb', h⟩)
          · exact .inl (by simp [h])
          · rcases List.mem_cons.mp hm with rfl | hm
            · exact .inl (by simp [h])
            · exact .inr ⟨col', hm, hb', by rw [hat' col' hm]; exact h⟩
    · have e : drawBit cx py b acc col = acc := by simp [drawBit, hb]
      rw [e] at hat hhit ⊢
      constructor
      · intro c r
        rw [hat]
        simp [hb]
      · rw [hhit]
        simp [hb]

theorem columns_wrap_apart (cx : Nat) :
    [0, 1, 2, 3, 4, 5, 6, 7].Pairwise (fun i j => (cx + i) % 64 ≠ (cx + j) % 64) := by
  simp only [List.pairwise_cons, List.mem_cons, List.not_mem_nil, or_false]
  refine ⟨?_, ?_, ?_, ?_, ?_, ?_, ?_, ?_, List.Pairwise.nil⟩ <;> intro a h <;>
    first | exact h.elim | omega

theorem exists_column {p : Nat → Prop} :
    (∃ col ∈ [0, 1, 2, 3, 4, 5, 6, 7], p col) ↔ ∃ col, col < 8 ∧ p col := by
  constructor
  · rintro ⟨col, hm, h⟩
    simp only [List.mem_cons, List.not_mem_nil, or_false] at hm
    exact ⟨col, by omega, h⟩
  · rintro ⟨col, hm, h⟩
    refine ⟨col, ?_, h⟩
    simp only [List.mem_cons, List.not_mem_nil, or_false]
    omega

/-- A sprite row covers a column with one of its set bits. -/
abbrev rowCovers (cx : Nat) (b : Byte) (c : Nat) : Prop :=
  ∃ col, col < 8 ∧ b.getLsbD (7 - col) = true ∧ (cx + col) % 64 = c

/-- One row: the covered pixels of row py toggle, no other pixel changes. -/
theorem drawRow_at (cx : Nat) (py : Fin 32) (b : Byte) (acc : Screen × Bool) (c : Fin 64) (r : Fin 32) :
    (r = py ∧ rowCovers cx b c.val → Screen.at (drawRow cx py b acc).1 c r = !(Screen.at acc.1 c r)) ∧
    (¬ (r = py ∧ rowCovers cx b c.val) → Screen.at (drawRow cx py b acc).1 c r = Screen.at acc.1 c r) := by
  have h := (foldl_drawBit cx py b _ (columns_wrap_apart cx) acc).1 c r
  constructor <;> intro hc
  · rw [drawRow, h, decide_eq_true ⟨hc.1, exists_column.mpr hc.2⟩, Bool.xor_true]
  · rw [drawRow, h, decide_eq_false (fun k => hc ⟨k.1, exists_column.mp k.2⟩), Bool.xor_false]

/-- One row: the collision bit. -/
theorem drawRow_hit (cx : Nat) (py : Fin 32) (b : Byte) (acc : Screen × Bool) :
    (drawRow cx py b acc).2 = true ↔
      acc.2 = true ∨ ∃ c : Fin 64, rowCovers cx b c.val ∧ Screen.at acc.1 c py = true := by
  rw [drawRow, (foldl_drawBit cx py b _ (columns_wrap_apart cx) acc).2, exists_column]
  constructor
  · rintro (h | ⟨col, hc, hb, h⟩)
    · exact .inl h
    · exact .inr ⟨wrapColumn (cx + col), ⟨col, hc, hb, rfl⟩, h⟩
  · rintro (h | ⟨c, ⟨col, hc, hb, he⟩, h⟩)
    · exact .inl h
    · have : c = wrapColumn (cx + col) := Fin.ext he.symm
      exact .inr ⟨col, hc, hb, this ▸ h⟩

/-- A sprite covers a pixel: one of its rows, wrapped, is the pixel's row and covers its column. -/
abbrev rowsCover (cx cy : Nat) (bytes : List Byte) (c r : Nat) : Prop :=
  ∃ row, ∃ h : row < bytes.length, (cy + row) % 32 = r ∧ rowCovers cx bytes[row] c

theorem rowsCover_cons (cx cy : Nat) (b : Byte) (bs : List Byte) (c r : Nat) :
    rowsCover cx cy (b :: bs) c r ↔ (cy % 32 = r ∧ rowCovers cx b c) ∨ rowsCover cx (cy + 1) bs c r := by
  constructor
  · rintro ⟨row, h, hr, hc⟩
    cases row with
    | zero => exact .inl ⟨by simpa using hr, hc⟩
    | succ row =>
      exact .inr ⟨row, by simpa using h, by rw [← hr]; congr 1; omega, hc⟩
  · rintro (⟨hr, hc⟩ | ⟨row, h, hr, hc⟩)
    · exact ⟨0, by simp, by simpa using hr, hc⟩
    · exact ⟨row + 1, by simpa using h, by rw [← hr]; congr 1; omega, hc⟩

/-- Everything the sprite fold does, for sprites of at most 32 rows: the covered pixels toggle, once each, no other
pixel changes, and the collision bit is set exactly when a covered pixel was set. -/
theorem drawRows_spec (cx : Nat) (bytes : List Byte) (cy : Nat) (acc : Screen × Bool) (hlen : bytes.length ≤ 32) :
    (∀ (c : Fin 64) (r : Fin 32), rowsCover cx cy bytes c.val r.val →
      Screen.at (drawRows cx cy bytes acc).1 c r = !(Screen.at acc.1 c r)) ∧
    (∀ (c : Fin 64) (r : Fin 32), ¬ rowsCover cx cy bytes c.val r.val →
      Screen.at (drawRows cx cy bytes acc).1 c r = Screen.at acc.1 c r) ∧
    ((drawRows cx cy bytes acc).2 = true ↔
      acc.2 = true ∨ ∃ (c : Fin 64) (r : Fin 32), rowsCover cx cy bytes c.val r.val ∧ Screen.at acc.1 c r = true) := by
  induction bytes generalizing cy acc with
  | nil =>
    have hno : ∀ c r, ¬ rowsCover cx cy [] c r := by rintro c r ⟨row, h, -⟩; simp at h
    exact ⟨fun c r h => (hno _ _ h).elim, fun c r _ => rfl, ⟨.inl, fun h => h.elim id fun ⟨c, r, k, _⟩ => (hno _ _ k).elim⟩⟩
  | cons b bs ih =>
    have hlen' : bs.length < 32 := by simpa using hlen
    obtain ⟨ihc, ihn, ihh⟩ := ih (cy + 1) (drawRow cx (wrapRow cy) b acc) (by omega)
    have hrow : ∀ r : Fin 32, r = wrapRow cy ↔ cy % 32 = r.val :=
      fun r => ⟨fun h => by rw [h]; rfl, fun h => Fin.ext h.symm⟩
    have apart : ∀ (c r : Nat), rowsCover cx (cy + 1) bs c r → cy % 32 ≠ r := by
      rintro c r ⟨row, h, hr, -⟩ e; omega
    have hd : ∀ (c : Fin 64) (r : Fin 32), rowsCover cx (cy + 1) bs c.val r.val →
        Screen.at (drawRow cx (wrapRow cy) b acc).1 c r = Screen.at acc.1 c r := fun c r hc =>
      (drawRow_at cx _ b acc c r).2 (fun k => apart _ _ hc ((hrow r).mp k.1))
    refine ⟨fun c r hc => ?_, fun c r hc => ?_, ?_⟩
    · show Screen.at (drawRows cx (cy + 1) bs (drawRow cx (wrapRow cy) b acc)).1 c r = _
      rw [rowsCover_cons] at hc
      by_cases hbs : rowsCover cx (cy + 1) bs c.val r.val
      · rw [ihc c r hbs, hd c r hbs]
      · rw [ihn c r hbs]
        obtain h | h := hc
        · exact (drawRow_at cx _ b acc c r).1 ⟨(hrow r).mpr h.1, h.2⟩
        · exact (hbs h).elim
    · show Screen.at (drawRows cx (cy + 1) bs (drawRow cx (wrapRow cy) b acc)).1 c r = _
      rw [rowsCover_cons, not_or] at hc
      rw [ihn c r hc.2]
      exact (drawRow_at cx _ b acc c r).2 (fun k => hc.1 ⟨(hrow r).mp k.1, k.2⟩)
    · show (drawRows cx (cy + 1) bs (drawRow cx (wrapRow cy) b acc)).2 = true ↔ _
      rw [ihh, drawRow_hit]
      constructor
      · rintro ((h | ⟨c, hc, h⟩) | ⟨c, r, hc, h⟩)
        · exact .inl h
        · exact .inr ⟨c, wrapRow cy, (rowsCover_cons ..).mpr (.inl ⟨rfl, hc⟩), h⟩
        · exact .inr ⟨c, r, (rowsCover_cons ..).mpr (.inr hc), by rw [← hd c r hc]; exact h⟩
      · rintro (h | ⟨c, r, hc, h⟩)
        · exact .inl (.inl h)
        · rcases (rowsCover_cons ..).mp hc with ⟨hr, hc⟩ | hc
          · exact .inl (.inr ⟨c, hc, by rw [← (hrow r).mpr hr]; exact h⟩)
          · exact .inr ⟨c, r, hc, by rw [hd c r hc]; exact h⟩

/-- A blank screen has no pixel set. -/
@[simp] theorem blankScreen_at (c : Fin 64) (r : Fin 32) : Screen.at blankScreen c r = false := by
  simp [Screen.at, blankScreen]

end Sys2Proof.Machine
end

