-- ==== Sys2Proof/Laws/Ops.lean ====
section
/-! SUPPORT. What each shared operation over registers, the stack, the skips, the fault latch and the execution cycle
can answer, said once. -/

namespace Sys2Proof.Machine

/-! ## Registers (42_register_alu.md, 40_execution_cycle.md R85) -/

/-- A result and a flag written: VF holds the flag whatever the destination is. -/
@[simp] theorem State.reg_setRegFlag (s : State) (x : RegIx) (b : Byte) (f : Bool) (k : RegIx) :
    (s.setRegFlag x b f).reg k = if k = 15 then flagByte f else if k = x then b else s.reg k := by
  simp [State.setRegFlag, vf]

/-- A result and a flag written: only the register file changes. -/
theorem State.setRegFlag_eq (s : State) (x : RegIx) (b : Byte) (f : Bool) :
    s.setRegFlag x b f = { s with V := (s.setRegFlag x b f).V } := rfl

@[simp] theorem flagByte_toNat (f : Bool) : (flagByte f).toNat = if f = true then 1 else 0 := by
  cases f <;> rfl

/-- The bulk load: the registers from k on take the bytes in order, the others keep theirs. -/
theorem loadRegsFrom_getElem (k : Nat) (bs : List Byte) (v : Regs) (j : Nat) (hj : j < 16) :
    (loadRegsFrom k bs v)[j] = if h : k ≤ j ∧ j - k < bs.length then bs[j - k]'h.2 else v[j] := by
  induction bs generalizing k v with
  | nil => simp [loadRegsFrom]
  | cons b bs ih =>
    simp only [loadRegsFrom, ih]
    by_cases h : j = k
    · subst h; simp
    · by_cases h1 : k + 1 ≤ j ∧ j - (k + 1) < bs.length
      · have h2 : k ≤ j ∧ j - k < (b :: bs).length := by simp only [List.length_cons]; omega
        have e : j - k = (j - (k + 1)) + 1 := by omega
        rw [dif_pos h1, dif_pos h2]
        simp only [e, List.getElem_cons_succ]
      · have h2 : ¬(k ≤ j ∧ j - k < (b :: bs).length) := by simp only [List.length_cons]; omega
        rw [dif_neg h1, dif_neg h2]
        simp [Ne.symm h]

/-- The stored range is x + 1 bytes long. -/
@[simp] theorem State.regRange_length (s : State) (x : RegIx) : (s.regRange x).length = x.val + 1 := by
  simp [State.regRange]

/-- The stored range holds V0..Vx in order. -/
theorem State.regRange_getElem (s : State) (x : RegIx) (k : Nat) (h : k < (s.regRange x).length) (hk : k < 16) :
    (s.regRange x)[k] = s.V[k] := by
  simp [State.regRange]

@[simp] theorem bcdDigits_length (v : Byte) : (bcdDigits v).length = 3 := rfl

/-- A register value is a key number, or it is at least 16. -/
theorem keyOperand_cases (b : Byte) :
    (∃ k : KeyIx, b.toNat = k.val ∧ keyOperand b = some k) ∨ (16 ≤ b.toNat ∧ keyOperand b = none) := by
  by_cases h : b.toNat < 16
  · exact .inl ⟨⟨b.toNat, h⟩, rfl, by simp [keyOperand, h]⟩
  · exact .inr ⟨by omega, by simp [keyOperand, h]⟩

/-! ## The stack (R25) -/

/-- A push appends when there is room and answers none when there are 16 entries. -/
theorem State.push_cases (s : State) (w : Word) :
    (s.stack.length < 16 ∧ s.push w = some (s.setStack (s.stack ++ [w]))) ∨
    (16 ≤ s.stack.length ∧ s.push w = none) := by
  by_cases h : s.stack.length < 16
  · exact .inl ⟨h, by simp [State.push, h]⟩
  · exact .inr ⟨by omega, by simp only [State.push, Config.stackDepth]; rw [if_neg h]⟩

/-- A pop gives the last entry and the stack without it, or none when the stack is empty. -/
theorem State.pop_cases (s : State) :
    (s.stack = [] ∧ s.pop = none) ∨
    (∃ rest w, s.stack = rest ++ [w] ∧ s.pop = some (w, s.setStack rest)) := by
  rcases List.eq_nil_or_concat s.stack with h | ⟨rest, w, h⟩
  · exact .inl ⟨h, by simp [State.pop, h]⟩
  · exact .inr ⟨rest, w, by simpa using h, by simp [State.pop, h]⟩

/-! ## Skips -/

/-- A skip changes pc only. -/
theorem skipIf_eq (c : Bool) (s : State) : skipIf c s = s.setPc (if c = true then s.pc + 2 else s.pc) := by
  cases c <;> rfl

/-! ## Faults (R152) -/

/-- A raise with nothing latched: only the record is written, and it names the instruction. -/
theorem raise_of_none (i : Instr) (kind : FaultKind) (info : Nat) {s : State} (h : s.fault = none) :
    raise i kind info s = .next { s with fault := some ⟨kind, s.pc - 2, some (encode i), info⟩ } := by
  simp [raise, State.latch_of_none h, State.instrAddr]

/-- Every raise answers a next state that differs in the latch only. -/
theorem raise_eq_latch (i : Instr) (kind : FaultKind) (info : Nat) (s : State) :
    ∃ r, raise i kind info s = .next (s.latch r) := ⟨_, rfl⟩

/-! ## The execution cycle (R80) -/

/-- What an advance can be: nothing, a fetch fault, or the execution of the decoded instruction. -/
theorem advance_cases (s : State) :
    ((s.fault ≠ none ∨ s.pending ≠ none) ∧ advance s = .next s) ∨
    (s.fault = none ∧ s.pending = none ∧ 4096 ≤ s.pc.toNat + 1 ∧
      advance s = .next { s with fault := some ⟨.fetchOutOfRange, s.pc, none, s.pc.toNat⟩ }) ∨
    (s.fault = none ∧ s.pending = none ∧ s.pc.toNat + 1 < 4096 ∧
      advance s = exec (decode (wordOfBytes (s.readByte s.pc.toNat) (s.readByte (s.pc.toNat + 1))))
        (s.setPc (s.pc + 2))) := by
  rcases hf : s.fault with _ | r
  · rcases hp : s.pending with _ | p
    · by_cases h : s.pc.toNat + 1 < 4096
      · exact .inr (.inr ⟨rfl, rfl, h, by simp [advance, hf, hp, State.fetch_eq_some h]⟩)
      · exact .inr (.inl ⟨rfl, rfl, by omega, by
          simp [advance, hf, hp, State.fetch_eq_none (s := s) (by omega), raiseFetch, State.latch_of_none hf]⟩)
    · exact .inl ⟨.inr (by simp), by simp [advance, hf, hp]⟩
  · exact .inl ⟨.inl (by simp), by simp [advance, hf]⟩

/-- A step is the next listed host command; when none is listed it is an advance, the next command of the free
sequence, or nothing. -/
theorem step_cases (s : State) :
    (∃ c rest, s.schedule = c :: rest ∧ step s = perform c (s.setSchedule rest)) ∨
    (s.schedule = [] ∧ s.hostTail = .advances ∧ step s = advance s) ∨
    (∃ n, s.schedule = [] ∧ s.hostTail = .free n ∧
      step s = perform (Config.hostCommand n) (s.setHostTail (.free (n + 1)))) ∨
    (s.schedule = [] ∧ s.hostTail = .ends ∧ step s = .next s) := by
  rcases h : s.schedule with _ | ⟨c, rest⟩
  · refine .inr ?_
    rcases ht : s.hostTail with _ | n | _
    · exact .inl ⟨rfl, rfl, by simp [step, nextTransaction, State.takeCommand, h, ht, perform]⟩
    · exact .inr (.inl ⟨n, rfl, rfl, by simp [step, nextTransaction, State.takeCommand, h, ht]⟩)
    · exact .inr (.inr ⟨rfl, rfl, by simp [step, nextTransaction, State.takeCommand, h, ht]⟩)
  · exact .inl ⟨c, rest, rfl, by simp [step, nextTransaction, State.takeCommand, h]⟩

end Sys2Proof.Machine
end

