-- ==== Sys2Proof/Laws/Exec.lean ====
section
/-! SUPPORT. What each instruction with a fault condition can answer (R150), and that every instruction answers either
a latched record of its own kind or a next state with the latch as it was. -/

namespace Sys2Proof.Machine

/-- RET: the underflow fault, or the last entry popped into pc (R91). -/
theorem execRet_cases (s : State) :
    (s.stack = [] ∧ execRet s = raise .ret .stackUnderflow (s.pc - 2).toNat s) ∨
    (∃ rest w, s.stack = rest ++ [w] ∧ execRet s = .next ((s.setStack rest).setPc w)) := by
  rcases s.pop_cases with ⟨h, hp⟩ | ⟨rest, w, h, hp⟩
  · exact .inl ⟨h, by simp [execRet, hp, State.instrAddr]⟩
  · exact .inr ⟨rest, w, h, by simp [execRet, hp]⟩

/-- CALL: the return address pushed and the jump taken, or the overflow fault (R93). -/
theorem execCall_cases (nnn : Addr12) (s : State) :
    (s.stack.length < 16 ∧
      execCall nnn s = .next ((s.setStack (s.stack ++ [s.pc])).setPc (addrOperand nnn))) ∨
    (16 ≤ s.stack.length ∧ execCall nnn s = raise (.call nnn) .stackOverflow (s.pc - 2).toNat s) := by
  rcases s.push_cases s.pc with ⟨h, hp⟩ | ⟨h, hp⟩
  · exact .inl ⟨h, by simp [execCall, hp]⟩
  · exact .inr ⟨h, by simp [execCall, hp, State.instrAddr]⟩

/-- The key skips: the skip on the key named, or the fault (R140, R141). -/
theorem skipOnKey_cases (i : Instr) (x : RegIx) (wanted : Bool) (s : State) :
    (∃ k : KeyIx, (s.reg x).toNat = k.val ∧ skipOnKey i x wanted s = .next (skipIf (s.key k == wanted) s)) ∨
    (16 ≤ (s.reg x).toNat ∧ skipOnKey i x wanted s = raise i .keyOutOfRange (s.reg x).toNat s) := by
  rcases keyOperand_cases (s.reg x) with ⟨k, h, hk⟩ | ⟨h, hk⟩
  · exact .inl ⟨k, h, by simp [skipOnKey, hk]⟩
  · exact .inr ⟨h, by simp [skipOnKey, hk]⟩

/-- BCD: three bytes written at I, or the fault (R123). -/
theorem execBcd_cases (x : RegIx) (s : State) :
    (s.I.toNat + 2 < 4096 ∧ execBcd x s = .next (s.writeBytes s.I.toNat (bcdDigits (s.reg x)))) ∨
    (4096 ≤ s.I.toNat + 2 ∧ execBcd x s = raise (.bcd x) .dataOutOfRange (max s.I.toNat 4096) s) := by
  rcases s.storeBytes_cases s.base (bcdDigits (s.reg x)) with ⟨h, hs⟩ | ⟨-, h, hs⟩ <;>
    simp only [bcdDigits_length, State.base] at h
  · exact .inl ⟨by omega, by rw [execBcd, hs]; rfl⟩
  · exact .inr ⟨by omega, by rw [execBcd, hs]; rfl⟩

/-- The bulk store: x + 1 bytes written at I, or the fault (R124). -/
theorem execStoreRegs_cases (x : RegIx) (s : State) :
    (s.I.toNat + x.val < 4096 ∧ execStoreRegs x s = .next (s.writeBytes s.I.toNat (s.regRange x))) ∨
    (4096 ≤ s.I.toNat + x.val ∧
      execStoreRegs x s = raise (.storeRegs x) .dataOutOfRange (max s.I.toNat 4096) s) := by
  rcases s.storeBytes_cases s.base (s.regRange x) with ⟨h, hs⟩ | ⟨-, h, hs⟩ <;>
    simp only [State.regRange_length, State.base] at h
  · exact .inl ⟨by omega, by rw [execStoreRegs, hs]; rfl⟩
  · exact .inr ⟨by omega, by rw [execStoreRegs, hs]; rfl⟩

/-- The bulk load: V0..Vx from the bytes at I, or the fault (R125). -/
theorem execLoadRegs_cases (x : RegIx) (s : State) :
    (s.I.toNat + x.val < 4096 ∧
      execLoadRegs x s = .next (s.setRegs (loadRegsFrom 0 (s.bytesAt s.I.toNat (x.val + 1)) s.V))) ∨
    (4096 ≤ s.I.toNat + x.val ∧
      execLoadRegs x s = raise (.loadRegs x) .dataOutOfRange (max s.I.toNat 4096) s) := by
  rcases s.loadBytes_cases s.base (x.val + 1) with ⟨h, hs⟩ | ⟨-, h, hs⟩ <;> simp only [State.base] at h
  · exact .inl ⟨by omega, by rw [execLoadRegs, hs]; rfl⟩
  · exact .inr ⟨by omega, by rw [execLoadRegs, hs]; rfl⟩

/-- DRW: the sprite XORed in and VF written, or the fault (R131). -/
theorem execDraw_cases (x y : RegIx) (n : Fin 16) (s : State) :
    ((n.val = 0 ∨ s.I.toNat + n.val ≤ 4096) ∧
      execDraw x y n s =
        .next ((s.setScreen (s.drawSprite (s.reg x) (s.reg y) (s.bytesAt s.I.toNat n.val)).1).setReg 15
          (flagByte (s.drawSprite (s.reg x) (s.reg y) (s.bytesAt s.I.toNat n.val)).2))) ∨
    (0 < n.val ∧ 4096 < s.I.toNat + n.val ∧
      execDraw x y n s = raise (.draw x y n) .dataOutOfRange (max s.I.toNat 4096) s) := by
  rcases s.loadBytes_cases s.base n.val with ⟨h, hs⟩ | ⟨h0, h, hs⟩ <;> simp only [State.base] at h
  · exact .inl ⟨h, by rw [execDraw, hs]; rfl⟩
  · exact .inr ⟨h0, h, by rw [execDraw, hs]; rfl⟩

/-- Every instruction answers its own fault record latched, or a next state with the latch as it was. -/
theorem exec_raises_or_keeps_latch (i : Instr) (s : State) :
    (∃ kind info, i.faultKind? = some kind ∧ exec i s = raise i kind info s) ∨
    (∃ t, exec i s = .next t ∧ t.fault = s.fault) := by
  cases i with
  | ret =>
    rcases execRet_cases s with ⟨-, h⟩ | ⟨rest, w, -, h⟩
    · exact .inl ⟨_, _, rfl, h⟩
    · exact .inr ⟨_, h, rfl⟩
  | call nnn =>
    rcases execCall_cases nnn s with ⟨-, h⟩ | ⟨-, h⟩
    · exact .inr ⟨_, h, rfl⟩
    · exact .inl ⟨_, _, rfl, h⟩
  | skipKeyDown x =>
    rcases skipOnKey_cases (.skipKeyDown x) x true s with ⟨k, -, h⟩ | ⟨-, h⟩
    · exact .inr ⟨_, h, by simp [skipIf_eq]⟩
    · exact .inl ⟨_, _, rfl, h⟩
  | skipKeyUp x =>
    rcases skipOnKey_cases (.skipKeyUp x) x false s with ⟨k, -, h⟩ | ⟨-, h⟩
    · exact .inr ⟨_, h, by simp [skipIf_eq]⟩
    · exact .inl ⟨_, _, rfl, h⟩
  | bcd x =>
    rcases execBcd_cases x s with ⟨-, h⟩ | ⟨-, h⟩
    · exact .inr ⟨_, h, by simp⟩
    · exact .inl ⟨_, _, rfl, h⟩
  | storeRegs x =>
    rcases execStoreRegs_cases x s with ⟨-, h⟩ | ⟨-, h⟩
    · exact .inr ⟨_, h, by simp⟩
    · exact .inl ⟨_, _, rfl, h⟩
  | loadRegs x =>
    rcases execLoadRegs_cases x s with ⟨-, h⟩ | ⟨-, h⟩
    · exact .inr ⟨_, h, rfl⟩
    · exact .inl ⟨_, _, rfl, h⟩
  | draw x y n =>
    rcases execDraw_cases x y n s with ⟨-, h⟩ | ⟨-, -, h⟩
    · exact .inr ⟨_, h, rfl⟩
    · exact .inl ⟨_, _, rfl, h⟩
  | unknown op => exact .inl ⟨_, _, rfl, rfl⟩
  | skipEqImm x nn => exact .inr ⟨_, rfl, by simp [skipIf_eq]⟩
  | skipNeImm x nn => exact .inr ⟨_, rfl, by simp [skipIf_eq]⟩
  | skipEqReg x y => exact .inr ⟨_, rfl, by simp [skipIf_eq]⟩
  | skipNeReg x y => exact .inr ⟨_, rfl, by simp [skipIf_eq]⟩
  | nop | clearScreen | jump _ | jumpV0 _ | setIndex _ => exact .inr ⟨_, rfl, rfl⟩
  | setVxImm _ _ | addVxImm _ _ | setVxRnd _ _ => exact .inr ⟨_, rfl, rfl⟩
  | setVxVy _ _ | orVxVy _ _ | andVxVy _ _ | xorVxVy _ _ => exact .inr ⟨_, rfl, rfl⟩
  | addVxVy _ _ | subVxVy _ _ | rShiftVx _ _ | subVyVx _ _ | lShiftVx _ _ => exact .inr ⟨_, rfl, rfl⟩
  | getDelay _ | waitKey _ | setDelay _ | setSound _ | addIndex _ | fontGlyph _ => exact .inr ⟨_, rfl, rfl⟩

end Sys2Proof.Machine
end

