-- ==== Sys2Proof/Laws/Host.lean ====
section
/-! SUPPORT. The block and its host are apart (60_exceptions.md R170): no transaction reads or writes the schedule, so a
command does the same whatever the host does next; and every host schedule runs through. -/

namespace Sys2Proof.Machine

/-- The same state under another host: another list of commands and another tail. -/
def State.withHost (s : State) (cs : List Command) (h : HostTail) : State := { s with schedule := cs, hostTail := h }

@[simp] theorem State.withHost_mem (s : State) (cs : List Command) (h : HostTail) : (s.withHost cs h).mem = s.mem := rfl
@[simp] theorem State.withHost_V (s : State) (cs : List Command) (h : HostTail) : (s.withHost cs h).V = s.V := rfl
@[simp] theorem State.withHost_I (s : State) (cs : List Command) (h : HostTail) : (s.withHost cs h).I = s.I := rfl
@[simp] theorem State.withHost_pc (s : State) (cs : List Command) (h : HostTail) : (s.withHost cs h).pc = s.pc := rfl
@[simp] theorem State.withHost_stack (s : State) (cs : List Command) (h : HostTail) : (s.withHost cs h).stack = s.stack := rfl
@[simp] theorem State.withHost_DT (s : State) (cs : List Command) (h : HostTail) : (s.withHost cs h).DT = s.DT := rfl
@[simp] theorem State.withHost_ST (s : State) (cs : List Command) (h : HostTail) : (s.withHost cs h).ST = s.ST := rfl
@[simp] theorem State.withHost_screen (s : State) (cs : List Command) (h : HostTail) : (s.withHost cs h).screen = s.screen := rfl
@[simp] theorem State.withHost_keys (s : State) (cs : List Command) (h : HostTail) : (s.withHost cs h).keys = s.keys := rfl
@[simp] theorem State.withHost_pending (s : State) (cs : List Command) (h : HostTail) : (s.withHost cs h).pending = s.pending := rfl
@[simp] theorem State.withHost_paused (s : State) (cs : List Command) (h : HostTail) : (s.withHost cs h).paused = s.paused := rfl
@[simp] theorem State.withHost_fault (s : State) (cs : List Command) (h : HostTail) : (s.withHost cs h).fault = s.fault := rfl
@[simp] theorem State.withHost_image (s : State) (cs : List Command) (h : HostTail) : (s.withHost cs h).image = s.image := rfl
@[simp] theorem State.withHost_rngPos (s : State) (cs : List Command) (h : HostTail) : (s.withHost cs h).rngPos = s.rngPos := rfl
@[simp] theorem State.withHost_font (s : State) (cs : List Command) (h : HostTail) : (s.withHost cs h).font = s.font := rfl
@[simp] theorem State.withHost_outputs (s : State) (cs : List Command) (h : HostTail) : (s.withHost cs h).outputs = s.outputs := rfl
@[simp] theorem State.withHost_schedule (s : State) (cs : List Command) (h : HostTail) : (s.withHost cs h).schedule = cs := rfl
@[simp] theorem State.withHost_hostTail (s : State) (cs : List Command) (h : HostTail) : (s.withHost cs h).hostTail = h := rfl

theorem writeBytes_withHost (s : State) (a : Nat) (bs : List Byte) (cs : List Command) (h : HostTail) :
    (s.withHost cs h).writeBytes a bs = (s.writeBytes a bs).withHost cs h := by
  induction bs generalizing s a with
  | nil => rfl
  | cons b bs ih => simp only [State.writeBytes]; exact ih (s.writeByte a b) (a + 1)

theorem bytesAt_withHost (s : State) (a n : Nat) (cs : List Command) (h : HostTail) :
    (s.withHost cs h).bytesAt a n = s.bytesAt a n := by
  induction n generalizing a with
  | zero => rfl
  | succ n ih => simp only [State.bytesAt, ih]; rfl

theorem skipIf_withHost (c : Bool) (s : State) (cs : List Command) (h : HostTail) :
    skipIf c (s.withHost cs h) = (skipIf c s).withHost cs h := by
  cases c <;> rfl

/-- An instruction neither reads nor writes the host's side. -/
theorem exec_withHost (i : Instr) (s : State) (cs : List Command) (h : HostTail) :
    ∃ t, exec i s = .next t ∧ exec i (s.withHost cs h) = .next (t.withHost cs h) ∧
      t.schedule = s.schedule ∧ t.hostTail = s.hostTail := by
  cases i with
  | ret =>
    rcases execRet_cases s with ⟨h0, h1⟩ | ⟨rest, w, h0, h1⟩
    · refine ⟨_, h1, ?_, rfl, rfl⟩
      rcases execRet_cases (s.withHost cs h) with ⟨-, h2⟩ | ⟨_, _, h2, -⟩
      · exact h2
      · simp [State.withHost, h0] at h2
    · refine ⟨_, h1, ?_, rfl, rfl⟩
      rcases execRet_cases (s.withHost cs h) with ⟨h2, -⟩ | ⟨r2, w2, h2, h3⟩
      · simp [State.withHost, h0] at h2
      · have : rest ++ [w] = r2 ++ [w2] := h0.symm.trans h2
        obtain ⟨rfl, h4⟩ := List.append_inj' this rfl
        cases h4; exact h3
  | call nnn =>
    rcases execCall_cases nnn s with ⟨h0, h1⟩ | ⟨h0, h1⟩ <;>
      rcases execCall_cases nnn (s.withHost cs h) with ⟨h2, h3⟩ | ⟨h2, h3⟩ <;>
      first
        | exact ⟨_, h1, h3, rfl, rfl⟩
        | (have h2' : _ := h2; simp only [State.withHost] at h2'; omega)
  | skipKeyDown x =>
    simp only [exec, execSkipKeyDown, skipOnKey]
    rw [show (s.withHost cs h).reg x = s.reg x from rfl]
    cases keyOperand (s.reg x) with
    | none => exact ⟨_, rfl, rfl, rfl, rfl⟩
    | some k =>
      exact ⟨_, rfl, congrArg _ (skipIf_withHost _ s cs h), by simp [skipIf_eq], by simp [skipIf_eq]⟩
  | skipKeyUp x =>
    simp only [exec, execSkipKeyUp, skipOnKey]
    rw [show (s.withHost cs h).reg x = s.reg x from rfl]
    cases keyOperand (s.reg x) with
    | none => exact ⟨_, rfl, rfl, rfl, rfl⟩
    | some k =>
      exact ⟨_, rfl, congrArg _ (skipIf_withHost _ s cs h), by simp [skipIf_eq], by simp [skipIf_eq]⟩
  | bcd x =>
    rcases execBcd_cases x s with ⟨h0, h1⟩ | ⟨h0, h1⟩ <;>
      rcases execBcd_cases x (s.withHost cs h) with ⟨h2, h3⟩ | ⟨h2, h3⟩
    · exact ⟨_, h1, h3.trans (congrArg _ (writeBytes_withHost ..)), by simp, by simp⟩
    · exact absurd h0 (Nat.not_lt.mpr h2)
    · exact absurd h2 (Nat.not_lt.mpr h0)
    · exact ⟨_, h1, h3, rfl, rfl⟩
  | storeRegs x =>
    rcases execStoreRegs_cases x s with ⟨h0, h1⟩ | ⟨h0, h1⟩ <;>
      rcases execStoreRegs_cases x (s.withHost cs h) with ⟨h2, h3⟩ | ⟨h2, h3⟩
    · exact ⟨_, h1, h3.trans (congrArg _ (writeBytes_withHost ..)), by simp, by simp⟩
    · exact absurd h0 (Nat.not_lt.mpr h2)
    · exact absurd h2 (Nat.not_lt.mpr h0)
    · exact ⟨_, h1, h3, rfl, rfl⟩
  | loadRegs x =>
    rcases execLoadRegs_cases x s with ⟨h0, h1⟩ | ⟨h0, h1⟩ <;>
      rcases execLoadRegs_cases x (s.withHost cs h) with ⟨h2, h3⟩ | ⟨h2, h3⟩
    · refine ⟨_, h1, ?_, rfl, rfl⟩
      rw [show exec (.loadRegs x) (s.withHost cs h) = _ from h3, bytesAt_withHost]; rfl
    · exact absurd h0 (Nat.not_lt.mpr h2)
    · exact absurd h2 (Nat.not_lt.mpr h0)
    · exact ⟨_, h1, h3, rfl, rfl⟩
  | draw x y n =>
    rcases execDraw_cases x y n s with ⟨h0, h1⟩ | ⟨h0, h0', h1⟩ <;>
      rcases execDraw_cases x y n (s.withHost cs h) with ⟨h2, h3⟩ | ⟨h2, h2', h3⟩
    · refine ⟨_, h1, ?_, rfl, rfl⟩
      rw [show exec (.draw x y n) (s.withHost cs h) = _ from h3, bytesAt_withHost]; rfl
    · simp only [State.withHost] at h2'; omega
    · simp only [State.withHost] at h2; omega
    · exact ⟨_, h1, h3, rfl, rfl⟩
  | skipEqImm x nn | skipNeImm x nn | skipEqReg x y | skipNeReg x y =>
    exact ⟨_, rfl, congrArg _ (skipIf_withHost _ s cs h), by simp [skipIf_eq], by simp [skipIf_eq]⟩
  | nop | clearScreen | jump _ | jumpV0 _ | setIndex _ => exact ⟨_, rfl, rfl, rfl, rfl⟩
  | setVxImm _ _ | addVxImm _ _ | setVxRnd _ _ => exact ⟨_, rfl, rfl, rfl, rfl⟩
  | setVxVy _ _ | orVxVy _ _ | andVxVy _ _ | xorVxVy _ _ => exact ⟨_, rfl, rfl, rfl, rfl⟩
  | addVxVy _ _ | subVxVy _ _ | rShiftVx _ _ | subVyVx _ _ | lShiftVx _ _ => exact ⟨_, rfl, rfl, rfl, rfl⟩
  | getDelay _ | waitKey _ | setDelay _ | setSound _ | addIndex _ | fontGlyph _ => exact ⟨_, rfl, rfl, rfl, rfl⟩
  | unknown op => exact ⟨_, rfl, rfl, rfl, rfl⟩

/-- An advance neither reads nor writes the host's side. -/
theorem advance_withHost (s : State) (cs : List Command) (h : HostTail) :
    ∃ t, advance s = .next t ∧ advance (s.withHost cs h) = .next (t.withHost cs h) ∧
      t.schedule = s.schedule ∧ t.hostTail = s.hostTail := by
  rcases advance_cases s with ⟨h0, h1⟩ | ⟨h0, h0', h0'', h1⟩ | ⟨h0, h0', h0'', h1⟩ <;>
    rcases advance_cases (s.withHost cs h) with ⟨h2, h3⟩ | ⟨h2, h2', h2'', h3⟩ | ⟨h2, h2', h2'', h3⟩
  case inl.inl => exact ⟨_, h1, h3, rfl, rfl⟩
  case inr.inl.inr.inl => exact ⟨_, h1, h3, rfl, rfl⟩
  case inr.inr.inr.inr =>
    obtain ⟨t, e1, e2, e3, e4⟩ := exec_withHost
      (decode (wordOfBytes (s.readByte s.pc.toNat) (s.readByte (s.pc.toNat + 1)))) (s.setPc (s.pc + 2)) cs h
    exact ⟨t, h1.trans e1, h3.trans e2, e3, e4⟩
  all_goals simp only [State.withHost] at *; simp_all <;> omega

/-- Every host command answers a next state, whatever host issues it, and leaves the rest of the schedule as it is. -/
theorem perform_withHost (c : Command) (s : State) (cs : List Command) (h : HostTail) :
    ∃ t, perform c s = .next t ∧ perform c (s.withHost cs h) = .next (t.withHost cs h) ∧
      t.schedule = s.schedule ∧ t.hostTail = s.hostTail := by
  cases c with
  | advance => exact advance_withHost s cs h
  | stepBack =>
    simp only [perform, stepBack]
    rw [show (s.withHost cs h).fault = s.fault from rfl]
    split
    · exact ⟨_, rfl, rfl, rfl, rfl⟩
    · exact advance_withHost (s.setPc (s.pc - 4)) cs h
  | tickTimers =>
    refine ⟨_, rfl, ?_, ?_, ?_⟩
    · simp only [perform, tickTimers]; rw [show (s.withHost cs h).ST = s.ST from rfl]
      split <;> rfl
    · simp only [tickTimers]; split <;> rfl
    · simp only [tickTimers]; split <;> rfl
  | release k =>
    refine ⟨_, rfl, ?_, ?_, ?_⟩
    · simp only [perform, releaseKey]; rw [show (s.withHost cs h).pending = s.pending from rfl]
      split <;> rfl
    · simp only [releaseKey]; split <;> rfl
    · simp only [releaseKey]; split <;> rfl
  | load bytes =>
    refine ⟨_, rfl, ?_, ?_, ?_⟩
    · simp only [perform, loadImage]; split <;> rfl
    · simp only [loadImage]; split <;> rfl
    · simp only [loadImage]; split <;> rfl
  | press _ | isDown _ | snapshot | reset | getScreen | fetchAt _ | isPaused | pauseOrResume | readRegisters | readFault
  | readPending | readSound => exact ⟨_, rfl, rfl, rfl, rfl⟩

/-! ## Runs under a host schedule -/

/-- A run under a host schedule is extended at its end. -/
theorem runUnder_succ_of_next {h : HostSchedule} {k : Nat} {s t : State} (ht : runUnder h k s = .next t) :
    runUnder h (k + 1) s = match h k with | some c => perform c t | none => .next t := by
  cases hk : h k <;> simp [runUnder, ht, hk]

/-- Every prefix of every host schedule runs through. -/
theorem runUnder_next (h : HostSchedule) (k : Nat) (s : State) : ∃ t, runUnder h k s = .next t := by
  induction k with
  | zero => exact ⟨_, rfl⟩
  | succ k ih =>
    obtain ⟨t, ht⟩ := ih
    rw [runUnder_succ_of_next ht]
    cases h k with
    | none => exact ⟨t, rfl⟩
    | some c => obtain ⟨u, hu, -⟩ := perform_withHost c t [] .ends; exact ⟨u, hu⟩

end Sys2Proof.Machine
end

