-- ==== Sys2Proof/Laws/PerInstr.lean ====
section
/-! SUPPORT. Per instruction: the encoder's word lies in the instruction's own row of the opcode map (30_encoding.md R65,
R68), and in no row for Unknown. -/

namespace Sys2Proof

/-! ## The masks of the opcode map as fields -/

theorem and_maskAddr (op : Word) : op &&& (0xF000 : Word) = (d1Field op ++ 0#12 : Word) := by
  apply BitVec.eq_of_getLsbD_eq
  intro j hj
  simp only [d1Field, BitVec.getLsbD_and, BitVec.getLsbD_append, BitVec.getLsbD_extractLsb']
  interval_cases j <;> simp

theorem and_maskXY (op : Word) : op &&& (0xF00F : Word) = (d1Field op ++ 0#8 ++ regBits (nField op) : Word) := by
  apply BitVec.eq_of_getLsbD_eq
  intro j hj
  have : regBits (nField op) = op.extractLsb' 0 4 := rfl
  simp only [this, d1Field, BitVec.getLsbD_and, BitVec.getLsbD_append, BitVec.getLsbD_extractLsb']
  interval_cases j <;> simp

theorem and_maskX (op : Word) : op &&& (0xF0FF : Word) = (d1Field op ++ 0#4 ++ nnField op : Word) := by
  apply BitVec.eq_of_getLsbD_eq
  intro j hj
  simp only [d1Field, nnField, BitVec.getLsbD_and, BitVec.getLsbD_append, BitVec.getLsbD_extractLsb']
  interval_cases j <;> simp

/-- A format XNN or ADDR row takes a word by its first nibble. -/
theorem takes_addr (m : String) (v op : Word) (h : (d1Field op ++ 0#12 : Word) = v) : OpcodeRow.takes ⟨m, 0xF000, v⟩ op = true := by
  show (op &&& (0xF000 : Word) == v) = true
  rw [and_maskAddr, h, beq_self_eq_true]

/-- A format XY row takes a word by its first and last nibbles. -/
theorem takes_xy (m : String) (v op : Word) (h : (d1Field op ++ 0#8 ++ regBits (nField op) : Word) = v) :
    OpcodeRow.takes ⟨m, 0xF00F, v⟩ op = true := by
  show (op &&& (0xF00F : Word) == v) = true
  rw [and_maskXY, h, beq_self_eq_true]

/-- A format X row takes a word by its first nibble and low byte. -/
theorem takes_x (m : String) (v op : Word) (h : (d1Field op ++ 0#4 ++ nnField op : Word) = v) :
    OpcodeRow.takes ⟨m, 0xF0FF, v⟩ op = true := by
  show (op &&& (0xF0FF : Word) == v) = true
  rw [and_maskX, h, beq_self_eq_true]

/-- The statement of the family. -/
def Laws.EncodeFitsRow.Statement (i : Instr) : Prop :=
  i.wf = true →
    match i.mnemonic? with
    | some m => ∃ r ∈ opcodeRows, r.mnemonic = m ∧ r.takes (encode i) = true
    | none => recognised (encode i) = false

namespace Laws.EncodeFitsRow

theorem nop : Statement (.nop) := fun _ => ⟨⟨"NOP", 0xFFFF, 0x0000⟩, by decide, rfl, rfl⟩
theorem clearScreen : Statement (.clearScreen) := fun _ => ⟨⟨"CLS", 0xFFFF, 0x00E0⟩, by decide, rfl, rfl⟩
theorem ret : Statement (.ret) := fun _ => ⟨⟨"RET", 0xFFFF, 0x00EE⟩, by decide, rfl, rfl⟩
theorem jump (nnn : Addr12) : Statement (.jump nnn) := fun _ => ⟨⟨"JP_nnn", 0xF000, 0x1000⟩, by decide, rfl, takes_addr _ _ _ (by simp [encode])⟩
theorem call (nnn : Addr12) : Statement (.call nnn) := fun _ => ⟨⟨"CALL_nnn", 0xF000, 0x2000⟩, by decide, rfl, takes_addr _ _ _ (by simp [encode])⟩
theorem skipEqImm (x : RegIx) (nn : Byte) : Statement (.skipEqImm x nn) := fun _ => ⟨⟨"SE_Vx__nn", 0xF000, 0x3000⟩, by decide, rfl, takes_addr _ _ _ (by simp [encode])⟩
theorem skipNeImm (x : RegIx) (nn : Byte) : Statement (.skipNeImm x nn) := fun _ => ⟨⟨"SNE_Vx__nn", 0xF000, 0x4000⟩, by decide, rfl, takes_addr _ _ _ (by simp [encode])⟩
theorem skipEqReg (x : RegIx) (y : RegIx) : Statement (.skipEqReg x y) := fun _ => ⟨⟨"SE_Vx__Vy", 0xF00F, 0x5000⟩, by decide, rfl, takes_xy _ _ _ (by simp [encode]; rfl)⟩
theorem setVxImm (x : RegIx) (nn : Byte) : Statement (.setVxImm x nn) := fun _ => ⟨⟨"LD_Vx__nn", 0xF000, 0x6000⟩, by decide, rfl, takes_addr _ _ _ (by simp [encode])⟩
theorem addVxImm (x : RegIx) (nn : Byte) : Statement (.addVxImm x nn) := fun _ => ⟨⟨"ADD_Vx__nn", 0xF000, 0x7000⟩, by decide, rfl, takes_addr _ _ _ (by simp [encode])⟩
theorem setVxVy (x : RegIx) (y : RegIx) : Statement (.setVxVy x y) := fun _ => ⟨⟨"LD_Vx__Vy", 0xF00F, 0x8000⟩, by decide, rfl, takes_xy _ _ _ (by simp [encode]; rfl)⟩
theorem orVxVy (x : RegIx) (y : RegIx) : Statement (.orVxVy x y) := fun _ => ⟨⟨"OR_Vx__Vy", 0xF00F, 0x8001⟩, by decide, rfl, takes_xy _ _ _ (by simp [encode]; rfl)⟩
theorem andVxVy (x : RegIx) (y : RegIx) : Statement (.andVxVy x y) := fun _ => ⟨⟨"AND_Vx__Vy", 0xF00F, 0x8002⟩, by decide, rfl, takes_xy _ _ _ (by simp [encode]; rfl)⟩
theorem xorVxVy (x : RegIx) (y : RegIx) : Statement (.xorVxVy x y) := fun _ => ⟨⟨"XOR_Vx__Vy", 0xF00F, 0x8003⟩, by decide, rfl, takes_xy _ _ _ (by simp [encode]; rfl)⟩
theorem addVxVy (x : RegIx) (y : RegIx) : Statement (.addVxVy x y) := fun _ => ⟨⟨"ADD_Vx__Vy", 0xF00F, 0x8004⟩, by decide, rfl, takes_xy _ _ _ (by simp [encode]; rfl)⟩
theorem subVxVy (x : RegIx) (y : RegIx) : Statement (.subVxVy x y) := fun _ => ⟨⟨"SUB_Vx__Vy", 0xF00F, 0x8005⟩, by decide, rfl, takes_xy _ _ _ (by simp [encode]; rfl)⟩
theorem rShiftVx (x : RegIx) (y : RegIx) : Statement (.rShiftVx x y) := fun _ => ⟨⟨"SHR_Vx__Vy", 0xF00F, 0x8006⟩, by decide, rfl, takes_xy _ _ _ (by simp [encode]; rfl)⟩
theorem subVyVx (x : RegIx) (y : RegIx) : Statement (.subVyVx x y) := fun _ => ⟨⟨"SUBN_Vx__Vy", 0xF00F, 0x8007⟩, by decide, rfl, takes_xy _ _ _ (by simp [encode]; rfl)⟩
theorem lShiftVx (x : RegIx) (y : RegIx) : Statement (.lShiftVx x y) := fun _ => ⟨⟨"SHL_Vx__Vy", 0xF00F, 0x800E⟩, by decide, rfl, takes_xy _ _ _ (by simp [encode]; rfl)⟩
theorem skipNeReg (x : RegIx) (y : RegIx) : Statement (.skipNeReg x y) := fun _ => ⟨⟨"SNE_Vx__Vy", 0xF00F, 0x9000⟩, by decide, rfl, takes_xy _ _ _ (by simp [encode]; rfl)⟩
theorem setIndex (nnn : Addr12) : Statement (.setIndex nnn) := fun _ => ⟨⟨"LD_I__nnn", 0xF000, 0xA000⟩, by decide, rfl, takes_addr _ _ _ (by simp [encode])⟩
theorem jumpV0 (nnn : Addr12) : Statement (.jumpV0 nnn) := fun _ => ⟨⟨"JP_V0__nnn", 0xF000, 0xB000⟩, by decide, rfl, takes_addr _ _ _ (by simp [encode])⟩
theorem setVxRnd (x : RegIx) (nn : Byte) : Statement (.setVxRnd x nn) := fun _ => ⟨⟨"RND_Vx__nn", 0xF000, 0xC000⟩, by decide, rfl, takes_addr _ _ _ (by simp [encode])⟩
theorem draw (x : RegIx) (y : RegIx) (n : Fin 16) : Statement (.draw x y n) := fun _ => ⟨⟨"DRW_Vx__Vy__n", 0xF000, 0xD000⟩, by decide, rfl, takes_addr _ _ _ (by simp [encode])⟩
theorem skipKeyDown (x : RegIx) : Statement (.skipKeyDown x) := fun _ => ⟨⟨"SKP_Vx", 0xF0FF, 0xE09E⟩, by decide, rfl, takes_x _ _ _ (by simp [encode])⟩
theorem skipKeyUp (x : RegIx) : Statement (.skipKeyUp x) := fun _ => ⟨⟨"SKNP_Vx", 0xF0FF, 0xE0A1⟩, by decide, rfl, takes_x _ _ _ (by simp [encode])⟩
theorem getDelay (x : RegIx) : Statement (.getDelay x) := fun _ => ⟨⟨"LD_Vx__DT", 0xF0FF, 0xF007⟩, by decide, rfl, takes_x _ _ _ (by simp [encode])⟩
theorem waitKey (x : RegIx) : Statement (.waitKey x) := fun _ => ⟨⟨"LD_Vx__K", 0xF0FF, 0xF00A⟩, by decide, rfl, takes_x _ _ _ (by simp [encode])⟩
theorem setDelay (x : RegIx) : Statement (.setDelay x) := fun _ => ⟨⟨"LD_DT__Vx", 0xF0FF, 0xF015⟩, by decide, rfl, takes_x _ _ _ (by simp [encode])⟩
theorem setSound (x : RegIx) : Statement (.setSound x) := fun _ => ⟨⟨"LD_ST__Vx", 0xF0FF, 0xF018⟩, by decide, rfl, takes_x _ _ _ (by simp [encode])⟩
theorem addIndex (x : RegIx) : Statement (.addIndex x) := fun _ => ⟨⟨"ADD_I__Vx", 0xF0FF, 0xF01E⟩, by decide, rfl, takes_x _ _ _ (by simp [encode])⟩
theorem fontGlyph (x : RegIx) : Statement (.fontGlyph x) := fun _ => ⟨⟨"LD_F__Vx", 0xF0FF, 0xF029⟩, by decide, rfl, takes_x _ _ _ (by simp [encode])⟩
theorem bcd (x : RegIx) : Statement (.bcd x) := fun _ => ⟨⟨"LD_B__Vx", 0xF0FF, 0xF033⟩, by decide, rfl, takes_x _ _ _ (by simp [encode])⟩
theorem storeRegs (x : RegIx) : Statement (.storeRegs x) := fun _ => ⟨⟨"LD__I___Vx", 0xF0FF, 0xF055⟩, by decide, rfl, takes_x _ _ _ (by simp [encode])⟩
theorem loadRegs (x : RegIx) : Statement (.loadRegs x) := fun _ => ⟨⟨"LD_Vx___I", 0xF0FF, 0xF065⟩, by decide, rfl, takes_x _ _ _ (by simp [encode])⟩
theorem unknown (op : Word) : Statement (.unknown op) := fun h => by
  show recognised op = false
  simpa [Instr.wf] using h

end Laws.EncodeFitsRow

end Sys2Proof
end

