-- ==== Sys2Proof/Tests/Slice0.lean ====
section
/-! SUPPORT. Tests of the model. Expected results come from the spec: words from the encodings of 30_encoding.md R62 and
R65, steps from 95_test_vectors.md (vector ids in the docstrings). Then, for every statement of Obligations.lean that has
hypotheses, a concrete state and operands that meet them, clause by clause at the boundary values. -/

namespace Sys2Proof.Tests

open Sys2Proof Sys2Proof.Machine

/-! ## WellFormed: the one ill-formed shape is refused -/

theorem test_wf_refuses_unknown_of_a_recognised_word :
    (Instr.unknown 0x6A42).wf = false ∧ (Instr.unknown 0x0000).wf = false ∧ (Instr.unknown 0xF365).wf = false := by
  decide

theorem test_wf_accepts_unknown_of_an_unrecognised_word :
    (Instr.unknown 0x5121).wf = true ∧ (Instr.unknown 0x00E1).wf = true ∧ (Instr.unknown 0xF3FF).wf = true := by
  decide

/-! ## Decode: every operation from its word, bit by bit, and back -/

/-- An operation's word decodes to it and it encodes to that word. -/
abbrev Codes (op : Word) (i : Instr) : Prop := decode op = i ∧ encode i = op

theorem test_decode_zero :
    Codes 0b0000_0000_0000_0000 .nop ∧ Codes 0b0000_0000_1110_0000 .clearScreen ∧
    Codes 0b0000_0000_1110_1110 .ret ∧ Codes 0b0000_0000_1110_0001 (.unknown 0x00E1) ∧
    Codes 0b0000_0001_0010_0011 (.unknown 0x0123) := by decide

theorem test_decode_jumps :
    Codes 0b0001_1010_1011_1100 (.jump 0xABC) ∧ Codes 0b0010_1111_1111_1111 (.call 0xFFF) ∧
    Codes 0b1011_0001_0010_0011 (.jumpV0 0x123) := by decide

theorem test_decode_skips :
    Codes 0b0011_1010_0100_0010 (.skipEqImm 0xA 0x42) ∧ Codes 0b0100_1010_0100_0010 (.skipNeImm 0xA 0x42) ∧
    Codes 0b0101_0001_0010_0000 (.skipEqReg 1 2) ∧ Codes 0b0101_0001_0010_0001 (.unknown 0x5121) ∧
    Codes 0b1001_0001_0010_0000 (.skipNeReg 1 2) ∧ Codes 0b1001_0001_0010_1111 (.unknown 0x912F) := by decide

theorem test_decode_immediates :
    Codes 0b0110_1111_0000_0000 (.setVxImm 0xF 0x00) ∧ Codes 0b0111_1010_0000_0001 (.addVxImm 0xA 0x01) ∧
    Codes 0b1010_0000_0000_0000 (.setIndex 0x000) ∧ Codes 0b1100_0000_1111_1111 (.setVxRnd 0 0xFF) := by decide

theorem test_decode_alu :
    Codes 0b1000_1010_1011_0000 (.setVxVy 0xA 0xB) ∧ Codes 0b1000_1010_1011_0001 (.orVxVy 0xA 0xB) ∧
    Codes 0b1000_1010_1011_0010 (.andVxVy 0xA 0xB) ∧ Codes 0b1000_1010_1011_0011 (.xorVxVy 0xA 0xB) ∧
    Codes 0b1000_1010_1011_0100 (.addVxVy 0xA 0xB) ∧ Codes 0b1000_1010_1011_0101 (.subVxVy 0xA 0xB) ∧
    Codes 0b1000_1010_1011_0110 (.rShiftVx 0xA 0xB) ∧ Codes 0b1000_1010_1011_0111 (.subVyVx 0xA 0xB) ∧
    Codes 0b1000_1010_1011_1110 (.lShiftVx 0xA 0xB) ∧ Codes 0b1000_1010_1011_1000 (.unknown 0x8AB8) ∧
    Codes 0b1000_1010_1011_1111 (.unknown 0x8ABF) := by decide

theorem test_decode_draw :
    Codes 0b1101_0000_0001_1111 (.draw 0 1 15) ∧ Codes 0b1101_0000_0001_0000 (.draw 0 1 0) := by decide

theorem test_decode_keys_and_timers :
    Codes 0b1110_0010_1001_1110 (.skipKeyDown 2) ∧ Codes 0b1110_0010_1010_0001 (.skipKeyUp 2) ∧
    Codes 0b1110_0010_1001_1111 (.unknown 0xE29F) ∧ Codes 0b1111_0011_0000_0111 (.getDelay 3) ∧
    Codes 0b1111_0011_0000_1010 (.waitKey 3) ∧ Codes 0b1111_0011_0001_0101 (.setDelay 3) ∧
    Codes 0b1111_0011_0001_1000 (.setSound 3) := by decide

theorem test_decode_index_and_memory :
    Codes 0b1111_0011_0001_1110 (.addIndex 3) ∧ Codes 0b1111_0011_0010_1001 (.fontGlyph 3) ∧
    Codes 0b1111_0011_0011_0011 (.bcd 3) ∧ Codes 0b1111_0011_0101_0101 (.storeRegs 3) ∧
    Codes 0b1111_0011_0110_0101 (.loadRegs 3) ∧ Codes 0b1111_0011_0011_0000 (.unknown 0xF330) ∧
    Codes 0b1111_0011_1111_1111 (.unknown 0xF3FF) := by decide

/-- R44: the byte at the lower address is the high byte; one byte is no instruction (R60). -/
theorem test_decode_bytes :
    decodeBytes [0x12, 0x34, 0x56] = .ok (.jump 0x234, [0x56]) ∧ decodeBytes [0x12] = .error .tooFewBytes ∧
    encodeBytes (.jump 0x234) = [0x12, 0x34] := by decide

theorem test_decode_table_word :
    decodeTableWord 16 0xD01F = some (.draw 0 1 15) ∧ decodeTableWord 16 0x10000 = none ∧
    decodeTableWord 24 0xD01F = none := by decide

/-! ## One step -/

/-- The vectors' base state S0: the word at 0x200, everything else as after construction. -/
def boot (op : Nat) : State := State.reset.withFetchWord 16 op

/-- The state a step answers with. -/
def next (s : State) : State :=
  match step s with
  | .next t => t
  | .fault _ => s
  | .refused _ => s

/-- The state a host command answers with. -/
def host (c : Command) (s : State) : State := next { s with schedule := [c] }

/-- Bytes written from an address on. -/
def poke (s : State) (a : Nat) (bytes : List Byte) : State := s.writeBytes a bytes

/-- The record of a fault of the instruction at 0x200. -/
def recordAt200 (kind : FaultKind) (op : Word) (info : Nat) : Option FaultRecord := some ⟨kind, 0x200, some op, info⟩

/-- CF1. -/
theorem test_nop : next (boot 0x0000) = (boot 0x0000).setPc 0x202 := by decide

/-- DS1. -/
theorem test_clear_screen :
    let s := (boot 0x00E0).setScreen (togglePixel 63 31 (blankScreen, false)).1
    s.pixel 63 31 = true ∧ (next s).screen = blankScreen ∧ (next s).pc = 0x202 := by decide

/-- CF7. -/
theorem test_ret : (next ((boot 0x00EE).setStack [0x208, 0x206])).pc = 0x206 ∧
    (next ((boot 0x00EE).setStack [0x208, 0x206])).stack = [0x208] := by decide

/-- CF8. -/
theorem test_ret_underflow : (next (boot 0x00EE)).fault = recordAt200 .stackUnderflow 0x00EE 0x200 ∧
    (next (boot 0x00EE)).pc = 0x202 := by decide

/-- CF2, CF3. -/
theorem test_jump : (next (boot 0x1234)).pc = 0x234 ∧ (next (boot 0x1333)).pc = 0x333 := by decide

/-- CF4. -/
theorem test_call : (next (boot 0x2210)).pc = 0x210 ∧ (next (boot 0x2210)).stack = [0x202] := by decide

/-- CF5, CF6. -/
theorem test_call_overflow :
    let full := (boot 0x2210).setStack (List.replicate 16 0x206)
    (next full).fault = recordAt200 .stackOverflow 0x2210 0x200 ∧ (next full).stack = full.stack ∧
    (next ((boot 0x2210).setStack (List.replicate 15 0x206))).stack.length = 16 := by decide

/-- CF9, CF10. -/
theorem test_skip_eq_imm : (next ((boot 0x3310).setReg 3 0x10)).pc = 0x204 ∧
    (next ((boot 0x3310).setReg 3 0x11)).pc = 0x202 := by decide

/-- CF11, CF12. -/
theorem test_skip_ne_imm : (next ((boot 0x4310).setReg 3 0x11)).pc = 0x204 ∧
    (next ((boot 0x4310).setReg 3 0x10)).pc = 0x202 := by decide

/-- CF13, CF14. -/
theorem test_skip_eq_reg : (next (((boot 0x5120).setReg 1 7).setReg 2 7)).pc = 0x204 ∧
    (next ((boot 0x5120).setReg 1 7)).pc = 0x202 ∧ (next ((boot 0x5110).setReg 1 7)).pc = 0x204 := by decide

/-- CF16, CF17. -/
theorem test_skip_ne_reg : (next (((boot 0x9120).setReg 1 1).setReg 2 2)).pc = 0x204 ∧
    (next ((boot 0x9110).setReg 1 1)).pc = 0x202 := by decide

/-- CF18, CF19: the sum is not masked. -/
theorem test_jump_v0 : (next ((boot 0xB300).setReg 0 0x10)).pc = 0x310 ∧
    (next ((boot 0xBFFF).setReg 0 0xFF)).pc = 0x10FE := by decide

/-- CF15, CF20, A27, K6. -/
theorem test_unknown : (next (boot 0x5121)).fault = recordAt200 .unknownOpcode 0x5121 0x5121 ∧
    (next (boot 0x0123)).fault = recordAt200 .unknownOpcode 0x0123 0x0123 ∧ (next (boot 0x8008)).pc = 0x202 ∧
    (next (boot 0xE09F)).fault = recordAt200 .unknownOpcode 0xE09F 0xE09F := by decide

/-- A1. -/
theorem test_set_imm : (next (boot 0x6A42)).reg 0xA = 0x42 := by decide

/-- A2, A3: no flag. -/
theorem test_add_imm : (next ((boot 0x7001).setReg 0 0xFF)).reg 0 = 0 ∧
    (next (((boot 0x7001).setReg 0 0xFF).setReg 15 0x77)).reg 15 = 0x77 := by decide

/-- A4. -/
theorem test_copy : (next (((boot 0x8120).setReg 1 0x11).setReg 2 0x33)).reg 1 = 0x33 := by decide

/-- A5: VF is not reset. -/
theorem test_or :
    let t := next ((((boot 0x8121).setReg 1 0x0F).setReg 2 0xF0).setReg 15 0x77)
    t.reg 1 = 0xFF ∧ t.reg 15 = 0x77 := by decide

/-- A6. -/
theorem test_and : (next (((boot 0x8122).setReg 1 0x3C).setReg 2 0x0F)).reg 1 = 0x0C := by decide

/-- A7, A8. -/
theorem test_xor : (next (((boot 0x8123).setReg 1 0xFF).setReg 2 0x0F)).reg 1 = 0xF0 ∧
    (next ((boot 0x8113).setReg 1 0x5A)).reg 1 = 0 := by decide

/-- E1, A10. -/
theorem test_add :
    let t := next (((boot 0x8014).setReg 0 0xFF).setReg 1 0x01)
    let u := next (((boot 0x8014).setReg 0 0x7F).setReg 1 0x01)
    t.reg 0 = 0 ∧ t.reg 15 = 1 ∧ u.reg 0 = 0x80 ∧ u.reg 15 = 0 := by decide

/-- A12, A13: VF as destination and as source. -/
theorem test_add_vf :
    (next (((boot 0x8F04).setReg 0 0x01).setReg 15 0xFF)).reg 15 = 1 ∧
    (next (((boot 0x80F4).setReg 0 0x10).setReg 15 0x05)).reg 0 = 0x15 := by decide

/-- E2, E3, A14. -/
theorem test_sub :
    let t := next (((boot 0x8015).setReg 0 1).setReg 1 2)
    let u := next (((boot 0x8015).setReg 0 5).setReg 1 5)
    t.reg 0 = 0xFF ∧ t.reg 15 = 0 ∧ u.reg 0 = 0 ∧ u.reg 15 = 1 := by decide

/-- A17, A18. -/
theorem test_subn :
    let t := next (((boot 0x8017).setReg 0 2).setReg 1 1)
    let u := next (((boot 0x8017).setReg 0 2).setReg 1 5)
    t.reg 0 = 0xFF ∧ t.reg 15 = 0 ∧ u.reg 0 = 3 ∧ u.reg 15 = 1 := by decide

/-- E4, A21. -/
theorem test_shr :
    let t := next (((boot 0x8016).setReg 0 0xAA).setReg 1 0x03)
    t.reg 0 = 1 ∧ t.reg 15 = 1 ∧ (next ((boot 0x8F16).setReg 1 0x02)).reg 15 = 0 := by decide

/-- E5, A24. -/
theorem test_shl :
    let t := next (((boot 0x801E).setReg 0 0x55).setReg 1 0x81)
    t.reg 0 = 2 ∧ t.reg 15 = 1 ∧ (next ((boot 0x8F1E).setReg 1 0x80)).reg 15 = 1 := by decide

/-- A25, on the write of a drawn byte; the draw itself is the free value of log 4. -/
theorem test_rnd_mask : (State.reset.setRandom 3 0x0F 0xB7).reg 3 = 0x07 := by decide

/-- A26 (decision D23): with nn = 0 one value is drawn all the same. -/
theorem test_rnd_draws_once : (next (boot 0xC300)).rngPos = 1 ∧ (next (boot 0xC300)).pc = 0x202 := by decide

/-- M1. -/
theorem test_set_index : (next (boot 0xA300)).I = 0x300 := by decide

/-- M3, M4. -/
theorem test_add_index :
    (next (((boot 0xF01E).setIndex 0xFFFF).setReg 0 1)).I = 0 ∧
    (next (((boot 0xF01E).setIndex 0x0FFF).setReg 0 1)).I = 0x1000 := by decide

/-- E13, M5: not masked. -/
theorem test_font_glyph : (next ((boot 0xF029).setReg 0 0x0A)).I = 0x032 ∧
    (next ((boot 0xF029).setReg 0 0xFF)).I = 0x4FB := by decide

/-- E8, M8. -/
theorem test_bcd :
    (next (((boot 0xF033).setIndex 0x300).setReg 0 0x9C)).bytesAt 0x300 3 = [1, 5, 6] ∧
    (next (((boot 0xF033).setIndex 0xFFD).setReg 0 0x2A)).bytesAt 0xFFD 3 = [0, 4, 2] := by decide

/-- M9, M15. -/
theorem test_bcd_past_memory :
    (next ((boot 0xF033).setIndex 0xFFE)).fault = recordAt200 .dataOutOfRange 0xF033 0x1000 ∧
    (next ((boot 0xF033).setIndex 0xFFFF)).fault = recordAt200 .dataOutOfRange 0xF033 0xFFFF := by decide

/-- E14. -/
theorem test_store_regs :
    let t := next ((((boot 0xF155).setIndex 0x300).setReg 0 1).setReg 1 2)
    t.bytesAt 0x300 3 = [1, 2, 0] ∧ t.I = 0x300 := by decide

/-- M16, R53: the store is what the next fetch sees. -/
theorem test_store_regs_modifies_code :
    (next ((boot 0xF055).setIndex 0x202)).readByte 0x202 = 0 ∧ (next ((boot 0xF055).setIndex 0x200)).readByte 0x200 = 0 := by
  decide

/-- M12, M14. -/
theorem test_load_regs :
    let t := next (poke ((boot 0xF265).setIndex 0x300) 0x300 [1, 5, 6, 9])
    t.reg 0 = 1 ∧ t.reg 1 = 5 ∧ t.reg 2 = 6 ∧ t.reg 3 = 0 ∧ t.I = 0x300 ∧
    (next ((boot 0xF065).setIndex 0x1000)).fault = recordAt200 .dataOutOfRange 0xF065 0x1000 := by decide

/-- E7: the columns wrap. -/
theorem test_draw_wraps :
    let t := next (poke ((((boot 0xD011).setIndex 0x300).setReg 0 60).setReg 1 1) 0x300 [0xFF])
    t.pixel 59 1 = false ∧ t.pixel 60 1 = true ∧ t.pixel 63 1 = true ∧ t.pixel 0 1 = true ∧ t.pixel 3 1 = true ∧
    t.pixel 4 1 = false ∧ t.reg 15 = 0 := by decide

/-- DS8 (a collision, the row register being VF), DS7. -/
theorem test_draw_collides :
    let s := (poke ((boot 0xD0F1).setIndex 0x300) 0x300 [0x01]).setScreen (togglePixel 7 0 (blankScreen, false)).1
    (next s).pixel 7 0 = false ∧ (next s).reg 15 = 1 ∧
    (next ((boot 0xD012).setIndex 0xFFF)).fault = recordAt200 .dataOutOfRange 0xD012 0x1000 := by decide

/-- K1, K2, K5. -/
theorem test_skip_key_down :
    (next (((boot 0xE19E).setReg 1 5).setKey 5 true)).pc = 0x204 ∧ (next ((boot 0xE19E).setReg 1 5)).pc = 0x202 ∧
    (next ((boot 0xE19E).setReg 1 0x10)).fault = recordAt200 .keyOutOfRange 0xE19E 0x10 := by decide

/-- K3, K4. -/
theorem test_skip_key_up :
    (next ((boot 0xE1A1).setReg 1 5)).pc = 0x204 ∧ (next (((boot 0xE1A1).setReg 1 5).setKey 5 true)).pc = 0x202 := by
  decide

/-- K7. -/
theorem test_get_delay : (next ((boot 0xF307).setDelay 0x3C)).reg 3 = 0x3C := by decide

/-- K8. -/
theorem test_set_delay : (next ((boot 0xF015).setReg 0 5)).DT = 5 := by decide

/-- K9, K15. -/
theorem test_set_sound : (next ((boot 0xF018).setReg 0 2)).ST = 2 ∧
    (next ((boot 0xF018).setSound 5)).ST = 0 ∧ (next ((boot 0xF018).setSound 5)).outputs = [] := by decide

/-- K10. -/
theorem test_wait_key : (next (boot 0xF30A)).pending = some 3 ∧ (next (boot 0xF30A)).pc = 0x202 := by decide

/-- K12, K13. -/
theorem test_wait_key_resolved :
    (host (.press 2) (next (boot 0xF30A))).pending = some 3 ∧
    (host (.release 9) (next (boot 0xF30A))).reg 3 = 9 ∧
    (host (.release 9) (next (boot 0xF30A))).pending = none := by decide

/-! ## Host commands -/

/-- T1, T2, T3, E10. -/
theorem test_tick :
    (host .tickTimers ((boot 0).setDelay 5)).DT = 4 ∧
    (host .tickTimers ((boot 0).setSound 1)).outputs = [.stopSound] ∧
    (host .tickTimers ((boot 0).setSound 2)).outputs = [] ∧
    (host .tickTimers (boot 0)).DT = 0 ∧ (host .tickTimers (boot 0)).outputs = [] := by decide

/-- T7, T8. -/
theorem test_keys : (host (.press 4) (boot 0)).key 4 = true ∧
    (host (.release 4) ((boot 0).setKey 4 true)).key 4 = false := by decide

/-- R170: a listed command comes before the tail; after the last one a host that has ended changes nothing. -/
theorem test_host_schedule :
    let s := ((boot 0x6001).setSchedule [.press 4]).setHostTail .ends
    (next s).key 4 = true ∧ (next s).pc = 0x200 ∧ next (next s) = next s ∧
    (next (next ((boot 0x6001).setSchedule [.press 4]))).pc = 0x202 := by decide

/-- T12. -/
theorem test_pause : (host .pauseOrResume (boot 0)).paused = true ∧
    (host .isPaused ((boot 0).setPaused true)).outputs = [.pausedFlag true] := by decide

/-- X1, X2. -/
theorem test_fetch_fault :
    (next (State.reset.setPc 0xFFF)).fault = some ⟨.fetchOutOfRange, 0xFFF, none, 0xFFF⟩ ∧
    (next (State.reset.setPc 0x1000)).pc = 0x1000 := by decide

/-- SB1, SB4. -/
theorem test_step_back :
    (host .stepBack ((poke (boot 0x6001) 0x202 [0x70, 0x01]).setPc 0x204)).reg 0 = 1 ∧
    (host .stepBack ((boot 0).setPc 2)).fault = some ⟨.fetchOutOfRange, 0xFFFE, none, 0xFFFE⟩ := by decide

/-- RS3. -/
theorem test_load_reset :
    let t := host .reset (host (.load [0x22, 0x00]) State.reset)
    t.bytesAt 0x200 2 = [0x22, 0x00] ∧ t.pc = 0x200 ∧ t.image = [0x22, 0x00] := by decide

/-- L2.1: fetch_at. -/
theorem test_fetch_at :
    (host (.fetchAt 0x200) (boot 0x00E0)).outputs = [.operation .clearScreen] ∧
    (host (.fetchAt 0xFFF) (boot 0x00E0)).outputs = [.fetchAtOutOfRange 0xFFF] := by decide

/-- P10's font bytes: the default glyph A at 0x032 (93_implementation_defined.md G3). -/
theorem test_font : State.reset.bytesAt 0x32 5 = [0xF0, 0x90, 0xF0, 0x90, 0x90] := by decide

/-! ## Witnesses: every statement's hypotheses can be met -/

/-- A latched fault. -/
def faulted : State := { State.reset with fault := some ⟨.unknownOpcode, 0x200, some 0x5121, 0x5121⟩ }

/-- A key awaited for V3. -/
def waiting : State := State.reset.setPending (some 3)

theorem witness_DecodeOfEncodeIsIdentity : (Instr.draw 15 15 15).wf = true ∧ (Instr.unknown 0xF0FF).wf = true := by decide

theorem witness_EncodeOfDecodeIsIdentity : decode 0x5121 = decode 0x5121 := rfl

theorem witness_DecodeFollowsTheOpcodeMap :
    (opcodeRows.any fun r => r.takes 0xFFFF) = false ∧ (∃ r ∈ opcodeRows, r.takes 0xF165 = true) ∧
    (∀ r ∈ opcodeRows, r.takes 0xFFFF = false) := by decide

theorem witness_StepRunsTheDecodedInstruction :
    State.reset.ready ∧ (State.reset.setPc 0xFFE).ready ∧ ¬ (State.reset.setPc 0xFFF).ready ∧
    (State.reset.setSchedule [.advance, .tickTimers]).takeCommand =
      some (.advance, State.reset.setSchedule [.tickTimers]) ∧
    State.reset.takeCommand = some (.advance, State.reset) := by decide

theorem witness_AdvanceFetchesDecodesExecutes :
    faulted.fault ≠ none ∧ waiting.pending ≠ none ∧
    ((State.reset.setPc 0xFFF).fault = none ∧ (State.reset.setPc 0xFFF).pending = none ∧
      4096 ≤ (State.reset.setPc 0xFFF).pc.toNat + 1) ∧
    ((State.reset.setPc 0xFFE).fault = none ∧ (State.reset.setPc 0xFFE).pending = none ∧
      (State.reset.setPc 0xFFE).pc.toNat + 1 < 4096) := by decide

theorem witness_StepsFollowTheHostSchedule :
    (State.reset.setSchedule [.tickTimers, .advance]).schedule = .tickTimers :: [.advance] ∧
    State.reset.hostAdvances ∧
    ((State.reset.setHostTail (.free 7)).schedule = [] ∧ (State.reset.setHostTail (.free 7)).hostTail = .free 7) ∧
    ((State.reset.setHostTail .ends).schedule = [] ∧ (State.reset.setHostTail .ends).hostTail = .ends) := by decide

/-- An endless host schedule that ticks infinitely often and releases key 9 infinitely often (the fairness premises of
92_eei_decisions.md D29), and one that only ticks. -/
def fairHost : HostSchedule := fun i =>
  if i % 3 = 0 then some .advance else if i % 3 = 1 then some .tickTimers else some (.release 9)

theorem test_fair_host_is_fair (n : Nat) :
    fairHost (3 * n + 1) = some .tickTimers ∧ fairHost (3 * n + 2) = some (.release 9) := by
  constructor <;> simp [fairHost]

theorem witness_ProgressDependsOnTheHost :
    fairHost 2 = some (.release 9) ∧
    (waiting.pending = some 3 ∧ (∀ i, i < 2 → fairHost i ≠ some .reset ∧ ∀ k, fairHost i ≠ some (.release k)) ∧
      ∃ t, runUnder fairHost 2 waiting = .next t) ∧
    ((∀ i, i < 2 → some Command.tickTimers ≠ some .advance ∧ some Command.tickTimers ≠ some .stepBack ∧
        some Command.tickTimers ≠ some .reset) ∧
      ∃ t, runUnder (fun _ => some .tickTimers) 2 (State.reset.setDelay 5) = .next t) :=
  ⟨rfl, ⟨rfl, by decide, _, rfl⟩, fun _ _ => ⟨nofun, nofun, nofun⟩, _, rfl⟩

theorem witness_PlacedWordRunsNext : (faulted.setPc 0xFFE).pc.toNat + 1 < 4096 := by decide

theorem witness_FetchPastMemoryLatches :
    (State.reset.setPc 0xFFF).hostAdvances ∧ (State.reset.setPc 0xFFF).fault = none ∧
    (State.reset.setPc 0xFFF).pending = none ∧ 4096 ≤ (State.reset.setPc 0xFFF).pc.toNat + 1 := by decide

theorem witness_FaultLatchStaysUntilReset :
    faulted.fault = some ⟨.unknownOpcode, 0x200, some 0x5121, 0x5121⟩ ∧ (Command.tickTimers ≠ .reset) ∧
    ∃ t, perform .tickTimers faulted = .next t := ⟨rfl, by decide, _, rfl⟩

theorem witness_FsmTransitions :
    (∃ t, perform .advance (boot 0x5121) = .next t ∧ (boot 0x5121).fsm = .running ∧ t.fsm ≠ .running) ∧
    (∃ t, perform (.release 9) waiting = .next t ∧ waiting.fsm = .awaitingKey 3 ∧ t.fsm = .running) ∧
    (∃ t, perform .reset faulted = .next t ∧ faulted.fsm = .faulted ∧ t.fsm = .running) :=
  ⟨⟨_, rfl, by decide⟩, ⟨_, rfl, by decide⟩, ⟨_, rfl, by decide⟩⟩

theorem witness_FaultingInstructionWritesOnlyTheRecord :
    State.reset.fault = none ∧ ∃ t, exec .ret State.reset = .next t ∧ t.fault ≠ none := ⟨rfl, _, rfl, by decide⟩

theorem witness_InstructionsRaiseOnlyTheirOwnFault :
    State.reset.fault = none ∧ ∃ t, exec .ret State.reset = .next t ∧
      t.fault = some ⟨.stackUnderflow, 0x1FE, some 0x00EE, 0x1FE⟩ := ⟨rfl, _, rfl, by decide⟩

theorem witness_OnlyNamedInstructionsWriteEachComponent : ∃ t, exec (.bcd 3) State.reset = .next t := ⟨_, rfl⟩

theorem witness_RegistersAreWrittenOnlyWhereNamed :
    ∃ t, exec (.addVxVy 1 2) State.reset = .next t ∧ (Instr.addVxVy 1 2).mayWrite 3 = false := ⟨_, rfl, rfl⟩

theorem witness_OnlyRndReadsTheRandomSource :
    (∀ x nn, Instr.addVxVy 1 2 ≠ .setVxRnd x nn) ∧ ∃ t, exec (.addVxVy 1 2) State.reset = .next t := ⟨nofun, _, rfl⟩

theorem witness_PauseFlagGatesNothing :
    Command.advance ≠ .isPaused ∧ Command.advance ≠ .pauseOrResume ∧ Command.advance ≠ .reset ∧
    ∃ t, perform .advance State.reset = .next t := ⟨nofun, nofun, nofun, _, rfl⟩

theorem witness_RetPopsOrLatchesUnderflow :
    (State.reset.setStack [0x208, 0x206]).stack = [0x208] ++ [0x206] ∧
    (State.reset.fault = none ∧ State.reset.stack = []) := by decide

theorem witness_CallPushesOrLatchesOverflow :
    (State.reset.setStack (List.replicate 15 0x202)).stack.length < 16 ∧
    (State.reset.setStack (List.replicate 16 0x202)).fault = none ∧
    (State.reset.setStack (List.replicate 16 0x202)).stack.length = 16 := by decide

theorem witness_RegisterSkips : (1#4 : BitVec 4) ≠ 0 ∧ (15#4 : BitVec 4) ≠ 0 := by decide

theorem witness_UnknownLatches : State.reset.fault = none := rfl

theorem witness_SingleByteAccessIsBoundsChecked : (4095 < 4096) ∧ (4096 ≤ 4096) := by decide

theorem witness_BcdStoresThreeDigits : (State.reset.setIndex 0xFFD).I.toNat + 2 < 4096 := by decide

theorem witness_StoreRegsCopiesTheRange : (State.reset.setIndex 0xFF0).I.toNat + (15 : RegIx).val < 4096 := by decide

theorem witness_LoadRegsCopiesTheRange : (State.reset.setIndex 0xFF0).I.toNat + (15 : RegIx).val < 4096 := by decide

theorem witness_DataPastMemoryLatches :
    (State.reset.setIndex 0xFFE).fault = none ∧ 4096 ≤ (State.reset.setIndex 0xFFE).I.toNat + 2 ∧
    4096 ≤ (State.reset.setIndex 0xFFF).I.toNat + (1 : RegIx).val ∧
    (0 < (2 : Fin 16).val ∧ 4096 ≤ (State.reset.setIndex 0xFFF).I.toNat + (2 : Fin 16).val - 1) := by decide

theorem witness_StoredRegistersAreLoadedBack :
    (State.reset.setIndex 0xFF0).I.toNat + (15 : RegIx).val < 4096 ∧ (3 : RegIx) ≤ 15 ∧ (3 : RegIx) < 15 := by decide

theorem witness_StoredWordIsFetchedNext :
    (State.reset.setIndex 0x200).ready ∧ (State.reset.setIndex 0x200).I = (State.reset.setIndex 0x200).pc ∧
    1 ≤ (1 : RegIx).val ∧ (State.reset.setIndex 0x200).I.toNat + (1 : RegIx).val < 4096 := by decide

/-- One state for each alternative, and a covered pixel, clear and then set. -/
theorem witness_DrawTogglesCoveredPixels :
    ((0 : Fin 16).val = 0 ∨ (State.reset.setIndex 0xFFFF).I.toNat + (0 : Fin 16).val ≤ 4096) ∧
    ((1 : Fin 16).val = 0 ∨ (State.reset.setIndex 0xFFF).I.toNat + (1 : Fin 16).val ≤ 4096) ∧
    State.reset.spriteCovers 0 0 1 0 0 ∧ State.reset.pixel 0 0 = false ∧
    (let s := State.reset.setScreen (togglePixel 0 0 (blankScreen, false)).1
     s.spriteCovers 0 0 1 0 0 ∧ s.pixel 0 0 = true) :=
  ⟨by decide, by decide, ⟨0, 0, by decide⟩, by decide, ⟨0, 0, by decide⟩, by decide⟩

theorem witness_DrawingTwiceRestoresTheScreen :
    (0 : RegIx) ≠ 15 ∧ (1 : RegIx) ≠ 15 ∧ ((5 : Fin 16).val = 0 ∨ State.reset.I.toNat + (5 : Fin 16).val ≤ 4096) := by
  decide

theorem witness_KeySkips :
    ((State.reset.setReg 1 15).reg 1).toNat = (15 : KeyIx).val ∧
    ((State.reset.setReg 1 16).fault = none ∧ 16 ≤ ((State.reset.setReg 1 16).reg 1).toNat) := by decide

theorem witness_WaitKeyIsResolvedByRelease : State.reset.fault = none ∧ (2 : KeyIx) ≠ 9 := by decide

theorem witness_ReleaseWithoutWaitClearsOneKey : (State.reset.setKey 4 true).pending = none := rfl

theorem witness_StepBackRewindsAndAdvances :
    (waiting.fault = none ∧ waiting.pending = some 3) ∧
    (State.reset.fault = none ∧ State.reset.pending = none) ∧
    (4 ≤ (State.reset.setPc 4).pc.toNat ∧ (State.reset.setPc 4).pc.toNat - 3 < 4096) ∧
    (4 ≤ (State.reset.setPc 4098).pc.toNat ∧ (State.reset.setPc 4098).pc.toNat - 3 < 4096) ∧
    (State.reset.setPc 3).pc.toNat < 4 := by decide

theorem witness_LoadRebuildsMemoryOrReports :
    (List.replicate 3584 (1 : Byte)).length ≤ 3584 ∧ 3584 < (List.replicate 3585 (1 : Byte)).length := by
  rw [List.length_replicate, List.length_replicate]
  omega

theorem witness_LaunchStateIsLoadThenReset : (List.replicate 3584 (1 : Byte)).length ≤ 3584 :=
  Nat.le_of_eq List.length_replicate

/-- A state that is not the reset state: a full stack, a latched record, a host command to come. -/
theorem witness_StepKeepsTheInvariant :
    ((faulted.setStack (List.replicate 16 0x202)).setSchedule [.tickTimers]).Inv ∧ (boot 0x2210).Inv ∧
    ∃ t, step (boot 0x2210) = .next t := ⟨by decide, by decide, _, rfl⟩

theorem witness_AdvanceKeepsPcBounded :
    ((State.reset.setPc 0x10FE).setStack [0x1000]).pcBounded ∧
    ∃ t, advance ((State.reset.setPc 0x10FE).setStack [0x1000]) = .next t :=
  ⟨⟨Nat.le_refl _, by simp [State.setStack]⟩, _, rfl⟩

end Sys2Proof.Tests
end

section
/-! SUPPORT. A step and a transaction of a HostSchedule side by side (60_exceptions.md R170, 92_eei_decisions.md D29): a
step issues entry 0 of the schedule the state holds and leaves the schedule from position 1 on. -/

namespace Sys2Proof.Machine

/-- One entry of a host schedule: its command is performed; nothing happens where the host issues none. -/
def State.issue (s : State) : Option Command → Result
  | some c => perform c s
  | none => .next s

/-! ## The schedule a state holds -/

theorem State.withHost_eq_self {s : State} {cs : List Command} {h : HostTail} (hs : s.schedule = cs)
    (ht : s.hostTail = h) : s.withHost cs h = s := by
  rw [← hs, ← ht]
  rfl

theorem State.hostSchedule_of_nil {s : State} (h : s.schedule = []) (i : Nat) :
    s.hostSchedule i = s.hostTail.command i := by
  simp [State.hostSchedule, h]

theorem State.hostSchedule_zero_of_cons {s : State} {c : Command} {rest : List Command}
    (h : s.schedule = c :: rest) : s.hostSchedule 0 = some c := by
  simp [State.hostSchedule, h]

theorem State.hostSchedule_succ_of_cons {s : State} {c : Command} {rest : List Command}
    (h : s.schedule = c :: rest) (i : Nat) :
    s.hostSchedule (i + 1) = (s.withHost rest s.hostTail).hostSchedule i := by
  simp [State.hostSchedule, h]

/-! ## One step, one entry -/

/-- A step performs entry 0 of the schedule on the state that holds the rest of it. -/
theorem step_eq_issue (s : State) : ∃ cs h, step s = (s.withHost cs h).issue (s.hostSchedule 0) ∧
    ∀ i, (s.withHost cs h).hostSchedule i = s.hostSchedule (i + 1) := by
  rcases step_cases s with ⟨c, rest, hs, e⟩ | ⟨hs, ht, e⟩ | ⟨n, hs, ht, e⟩ | ⟨hs, ht, e⟩
  · refine ⟨rest, s.hostTail, ?_, fun i => (State.hostSchedule_succ_of_cons hs i).symm⟩
    rw [State.hostSchedule_zero_of_cons hs]
    exact e
  · have hw := State.withHost_eq_self hs ht
    refine ⟨[], .advances, ?_, fun i => ?_⟩
    · rw [hw, State.hostSchedule_of_nil hs, ht]
      exact e
    · rw [hw, State.hostSchedule_of_nil hs, State.hostSchedule_of_nil hs, ht]
      rfl
  · have hw : s.withHost [] (.free (n + 1)) = s.setHostTail (.free (n + 1)) := by rw [← hs]; rfl
    refine ⟨[], .free (n + 1), ?_, fun i => ?_⟩
    · rw [hw, State.hostSchedule_of_nil hs, ht]
      exact e
    · rw [State.hostSchedule_of_nil rfl, State.hostSchedule_of_nil hs, ht]
      simp [HostTail.command, Nat.add_comm, Nat.add_left_comm]
  · have hw := State.withHost_eq_self hs ht
    refine ⟨[], .ends, ?_, fun i => ?_⟩
    · rw [hw, State.hostSchedule_of_nil hs, ht]
      exact e
    · rw [hw, State.hostSchedule_of_nil hs, State.hostSchedule_of_nil hs, ht]
      rfl

/-- An entry does the same to the block whatever host issues it. -/
theorem issue_withHost (o : Option Command) (s : State) (cs : List Command) (h : HostTail) :
    ∃ t, s.issue o = .next t ∧ (s.withHost cs h).issue o = .next (t.withHost cs h) := by
  cases o with
  | none => exact ⟨s, rfl, rfl⟩
  | some c =>
    obtain ⟨t, e, ew, -⟩ := perform_withHost c s cs h
    exact ⟨t, e, ew⟩

/-- The machine always goes on: every step answers a next state. -/
theorem step_next (s : State) : ∃ t, step s = .next t := by
  obtain ⟨cs, h, hstep, -⟩ := step_eq_issue s
  obtain ⟨t, -, ew⟩ := issue_withHost (s.hostSchedule 0) s cs h
  exact ⟨t.withHost cs h, hstep.trans ew⟩

/-! ## Runs -/

theorem runUnder_succ_eq_issue {h : HostSchedule} {k : Nat} {s t : State} (ht : runUnder h k s = .next t) :
    runUnder h (k + 1) s = t.issue (h k) := by
  rw [runUnder_succ_of_next ht]
  cases h k <;> rfl

theorem core_run_succ_of_step {s t : State} (ht : step s = .next t) (k : Nat) :
    core.run (k + 1) s = core.run k t := by
  have hc : core.step s = .next t := ht
  simp only [Host.Core.run, hc]

/-- A run of the machine is extended at its end. -/
theorem core_run_succ_of_run {k : Nat} {s t : State} (ht : core.run k s = .next t) :
    core.run (k + 1) s = step t := by
  induction k generalizing s with
  | zero =>
    obtain ⟨t', ht'⟩ := step_next s
    cases ht
    exact (core_run_succ_of_step ht' 0).trans ht'.symm
  | succ k ih =>
    obtain ⟨s', hs'⟩ := step_next s
    rw [core_run_succ_of_step hs'] at ht ⊢
    exact ih ht

/-- k steps are the first k entries of the schedule, up to the host's side, which then holds the schedule from
position k on. -/
theorem core_run_eq_runUnder_withHost (s : State) (k : Nat) : ∃ t cs h,
    runUnder s.hostSchedule k s = .next t ∧ core.run k s = .next (t.withHost cs h) ∧
      ∀ i, (t.withHost cs h).hostSchedule i = s.hostSchedule (k + i) := by
  induction k with
  | zero => exact ⟨s, s.schedule, s.hostTail, rfl, rfl, fun i => by rw [Nat.zero_add]; rfl⟩
  | succ k ih =>
    obtain ⟨t, cs, h, hu, hr, hsch⟩ := ih
    obtain ⟨cs', h', hstep, htail⟩ := step_eq_issue (t.withHost cs h)
    rw [hsch 0] at hstep
    obtain ⟨t', e, ew⟩ := issue_withHost (s.hostSchedule k) t cs' h'
    refine ⟨t', cs', h', (runUnder_succ_eq_issue hu).trans e,
      (core_run_succ_of_run hr).trans (hstep.trans ew), fun i => ?_⟩
    calc (t'.withHost cs' h').hostSchedule i
        = (t.withHost cs h).hostSchedule (i + 1) := htail i
      _ = s.hostSchedule (k + (i + 1)) := hsch (i + 1)
      _ = s.hostSchedule (k + 1 + i) := by rw [Nat.add_assoc, Nat.add_comm 1 i]

/-- Another host changes nothing but the host's side. -/
theorem frame_withHost (s : State) (cs : List Command) (h : HostTail) :
    Frame [.schedule, .hostTail] s (s.withHost cs h) := by
  intro c hc
  cases c with
  | schedule | hostTail => simp at hc
  | regs | screen | memory | keys => exact fun _ => by intros; rfl
  | index | pc | stack | delay | sound | pending | paused | fault | image | rng | font | outputs => rfl

end Sys2Proof.Machine

namespace Sys2Proof.Proofs
open Machine

/-- Settles O7: the first four clauses are the cases of a step; the last is induction on k, where the state of the
machine's run is the state under the schedule with another host's side. -/
theorem stepsFollowTheHostSchedule : Obligations.StepsFollowTheHostSchedule := by
  refine ⟨fun s c rest hs => ?listed, fun s hs => ?advances, fun s n hs ht => ?free, fun s hs ht => ?ends,
    fun s k => ?run⟩
  case listed => simpa [hs, State.setSchedule] using step_cases s
  case advances => simpa [hs.1, hs.2, perform] using step_cases s
  case free => simpa [hs, ht, State.setHostTail] using step_cases s
  case ends => simpa [hs, ht] using step_cases s
  case run =>
    obtain ⟨t, cs, h, hu, hr, hsch⟩ := core_run_eq_runUnder_withHost s k
    exact ⟨t, t.withHost cs h, hu, hr, hsch, frame_withHost t cs h⟩

end Sys2Proof.Proofs
end

section
/-! SUPPORT. What executing an instruction can do to the state (40_execution_cycle.md R86), said once: ExecEffect is
tied to exec by exec_effect, and the families' invariants are case splits on it. -/

namespace Sys2Proof.Machine

/-- The ways an instruction changes the state. Where several instructions share a way, a premise says which of them, or
which registers they may write, or that memory stays canonical. -/
inductive ExecEffect (s : State) : Instr → State → Prop
  | unchanged {i} : ExecEffect s i s
  | raised {i kind} (info : Nat) (hk : i.faultKind? = some kind) :
      ExecEffect s i (s.latch ⟨kind, s.pc - 2, some (encode i), info⟩)
  | regs {i} (v : Regs) (hv : ∀ k : RegIx, i.mayWrite k = false → v[k.val] = s.reg k) : ExecEffect s i (s.setRegs v)
  | pc {i} (w : Word) (hw : w = s.pc + 2 ∨ w.toNat ≤ 0x10FE) : ExecEffect s i (s.setPc w)
  | ret (rest : List Word) (w : Word) (hs : s.stack = rest ++ [w]) : ExecEffect s .ret ((s.setStack rest).setPc w)
  | call (nnn : Addr12) (hs : s.stack.length < 16) :
      ExecEffect s (.call nnn) ((s.setStack (s.stack ++ [s.pc])).setPc (addrOperand nnn))
  | index {i} (w : Word) (hi : (∃ nnn, i = .setIndex nnn) ∨ (∃ x, i = .addIndex x) ∨ ∃ x, i = .fontGlyph x) :
      ExecEffect s i (s.setIndex w)
  | delay (x : RegIx) (b : Byte) : ExecEffect s (.setDelay x) (s.setDelay b)
  | sound (x : RegIx) (b : Byte) : ExecEffect s (.setSound x) (s.setSound b)
  | pending (x : RegIx) : ExecEffect s (.waitKey x) (s.setPending (some x))
  | cleared : ExecEffect s .clearScreen (s.setScreen blankScreen)
  | drawn (x y : RegIx) (n : Fin 16) (g : Screen) (b : Byte) :
      ExecEffect s (.draw x y n) ((s.setScreen g).setReg 15 b)
  | random (x : RegIx) (nn b : Byte) : ExecEffect s (.setVxRnd x nn) ((s.setRngPos (s.rngPos + 1)).setReg x b)
  | memory {i} (m : Memory) (hi : (∃ x, i = .bcd x) ∨ ∃ x, i = .storeRegs x)
      (hm : Memory.wf s.font s.mem = true → Memory.wf s.font m = true) : ExecEffect s i { s with mem := m }

namespace ExecEffect

variable {s t : State} {i : Instr}

/-! ## The shared operations as effects -/

theorem ofSetReg {x : RegIx} (b : Byte) (hx : i.mayWrite x = true) : ExecEffect s i (s.setReg x b) := by
  refine .regs _ fun k hk => ?_
  have hkx : k ≠ x := by
    rintro rfl
    simp [hx] at hk
  exact (s.reg_setReg x k b).trans (if_neg hkx)

theorem ofSetRegFlag {x : RegIx} (b : Byte) (f : Bool) (hx : i.mayWrite x = true) (hf : i.mayWrite 15 = true) :
    ExecEffect s i (s.setRegFlag x b f) := by
  refine .regs _ fun k hk => ?_
  have hkx : k ≠ x := by
    rintro rfl
    simp [hx] at hk
  have hkf : k ≠ 15 := by
    rintro rfl
    simp [hf] at hk
  exact (s.reg_setRegFlag x b f k).trans (by rw [if_neg hkf, if_neg hkx])

theorem ofSkipIf (c : Bool) : ExecEffect s i (skipIf c s) := by
  cases c with
  | false => exact .unchanged
  | true => exact .pc _ (.inl rfl)

theorem ofWriteBytes {a : Nat} {bs : List Byte} (hi : (∃ x, i = .bcd x) ∨ ∃ x, i = .storeRegs x)
    (ha : a + bs.length ≤ 4096) : ExecEffect s i (s.writeBytes a bs) := by
  rw [State.writeBytes_eq]
  exact .memory _ hi (s.writeBytes_wf a bs ha)

end ExecEffect

/-! ## The targets of the jumps (10_state.md R23) -/

theorem addrOperand_toNat (nnn : Addr12) : (addrOperand nnn).toNat = nnn.toNat := by
  rw [addrOperand, BitVec.toNat_setWidth]
  omega

theorem addrOperand_toNat_le (nnn : Addr12) : (addrOperand nnn).toNat ≤ 0xFFF := by
  rw [addrOperand_toNat]
  omega

/-- The unmasked sum of Bnnn (decision D10) is at most 0xFFF + 0xFF. -/
theorem addrOperand_add_regWord_toNat_le (nnn : Addr12) (s : State) (x : RegIx) :
    (addrOperand nnn + s.regWord x).toNat ≤ 0x10FE := by
  have h1 := addrOperand_toNat_le nnn
  have h2 : (s.regWord x).toNat ≤ 0xFF := by
    rw [State.regWord, BitVec.toNat_setWidth]
    omega
  rw [BitVec.toNat_add]
  omega

/-! ## Every instruction has an effect -/

/-- Every instruction answers a next state, by one of the effects. -/
theorem exec_next_effect (i : Instr) (s : State) : ∃ t, exec i s = .next t ∧ ExecEffect s i t := by
  cases i with
  | nop => exact ⟨_, rfl, .unchanged⟩
  | clearScreen => exact ⟨_, rfl, .cleared⟩
  | ret =>
    rcases execRet_cases s with ⟨-, h⟩ | ⟨rest, w, hs, h⟩
    · exact ⟨_, h, .raised _ rfl⟩
    · exact ⟨_, h, .ret rest w hs⟩
  | call nnn =>
    rcases execCall_cases nnn s with ⟨hs, h⟩ | ⟨-, h⟩
    · exact ⟨_, h, .call nnn hs⟩
    · exact ⟨_, h, .raised _ rfl⟩
  | skipKeyDown x =>
    rcases skipOnKey_cases (.skipKeyDown x) x true s with ⟨k, -, h⟩ | ⟨-, h⟩
    · exact ⟨_, h, .ofSkipIf _⟩
    · exact ⟨_, h, .raised _ rfl⟩
  | skipKeyUp x =>
    rcases skipOnKey_cases (.skipKeyUp x) x false s with ⟨k, -, h⟩ | ⟨-, h⟩
    · exact ⟨_, h, .ofSkipIf _⟩
    · exact ⟨_, h, .raised _ rfl⟩
  | bcd x =>
    rcases execBcd_cases x s with ⟨hm, h⟩ | ⟨-, h⟩
    · exact ⟨_, h, .ofWriteBytes (.inl ⟨x, rfl⟩) hm⟩
    · exact ⟨_, h, .raised _ rfl⟩
  | storeRegs x =>
    rcases execStoreRegs_cases x s with ⟨hm, h⟩ | ⟨-, h⟩
    · exact ⟨_, h, .ofWriteBytes (.inr ⟨x, rfl⟩) (by rw [State.regRange_length]; exact hm)⟩
    · exact ⟨_, h, .raised _ rfl⟩
  | loadRegs x =>
    rcases execLoadRegs_cases x s with ⟨-, h⟩ | ⟨-, h⟩
    · refine ⟨_, h, .regs _ fun k hk => ?_⟩
      have hkx : x.val < k.val := by simpa [Instr.mayWrite] using hk
      rw [loadRegsFrom_getElem, dif_neg (by simp only [State.bytesAt_length]; omega)]
      rfl
    · exact ⟨_, h, .raised _ rfl⟩
  | draw x y n =>
    rcases execDraw_cases x y n s with ⟨-, h⟩ | ⟨-, -, h⟩
    · exact ⟨_, h, .drawn ..⟩
    · exact ⟨_, h, .raised _ rfl⟩
  | unknown op => exact ⟨_, rfl, .raised _ rfl⟩
  | skipEqImm _ _ | skipNeImm _ _ | skipEqReg _ _ | skipNeReg _ _ => exact ⟨_, rfl, .ofSkipIf _⟩
  | jump nnn => exact ⟨_, rfl, .pc _ (.inr ((addrOperand_toNat_le nnn).trans (by decide)))⟩
  | jumpV0 nnn => exact ⟨_, rfl, .pc _ (.inr (addrOperand_add_regWord_toNat_le nnn s 0))⟩
  | setVxImm _ _ | addVxImm _ _ | setVxVy _ _ | orVxVy _ _ | andVxVy _ _ | xorVxVy _ _ | getDelay _ =>
    exact ⟨_, rfl, .ofSetReg _ (by simp [Instr.mayWrite])⟩
  | addVxVy _ _ | subVxVy _ _ | rShiftVx _ _ | subVyVx _ _ | lShiftVx _ _ =>
    exact ⟨_, rfl, .ofSetRegFlag _ _ (by simp [Instr.mayWrite]) (by simp [Instr.mayWrite])⟩
  | setVxRnd x nn => exact ⟨_, rfl, .random x nn _⟩
  | setIndex nnn => exact ⟨_, rfl, .index _ (.inl ⟨nnn, rfl⟩)⟩
  | addIndex x => exact ⟨_, rfl, .index _ (.inr (.inl ⟨x, rfl⟩))⟩
  | fontGlyph x => exact ⟨_, rfl, .index _ (.inr (.inr ⟨x, rfl⟩))⟩
  | waitKey x => exact ⟨_, rfl, .pending x⟩
  | setDelay x => exact ⟨_, rfl, .delay x _⟩
  | setSound x => exact ⟨_, rfl, .sound x _⟩

/-- Whatever an instruction answers is one of the effects. -/
theorem exec_effect {i : Instr} {s t : State} (h : exec i s = .next t) : ExecEffect s i t := by
  obtain ⟨t', h', he⟩ := exec_next_effect i s
  cases h.symm.trans h'
  exact he

end Sys2Proof.Machine
end

section
/-! SUPPORT. Every transaction keeps the machine's invariant (log 6, 10_state.md R25 and R32, 60_exceptions.md R151 and
R159); the statement about a step is assembled from the transactions. -/

namespace Sys2Proof.Machine

variable {s t : State}

/-- No instruction raises the fetch fault (R150). -/
theorem faultKind_ne_fetchOutOfRange {i : Instr} {kind : FaultKind} (hk : i.faultKind? = some kind) :
    kind ≠ .fetchOutOfRange := by
  rintro rfl
  cases i <;> cases hk

/-- An instruction run while nothing is latched or awaited keeps the invariant: it latches or it waits, never both. -/
theorem ExecEffect.keeps_inv {i : Instr} (he : ExecEffect s i t) (hf : s.fault = none) (hp : s.pending = none)
    (h : s.Inv) : t.Inv := by
  obtain ⟨hmem, hstack, himage, hwait, hrec⟩ := h
  cases he with
  | raised info hk =>
    refine ⟨hmem, hstack, himage, fun _ => hp, ?_⟩
    simp [hf, FaultRecord.wf, faultKind_ne_fetchOutOfRange hk]
  | ret rest w hs =>
    have hlen : rest.length + 1 ≤ 16 := by simpa [hs] using hstack
    exact ⟨hmem, Nat.le_of_succ_le hlen, himage, hwait, hrec⟩
  | call nnn hs => exact ⟨hmem, by simpa using hs, himage, hwait, hrec⟩
  | pending x => exact ⟨hmem, hstack, himage, fun hl => by simp [hf] at hl, hrec⟩
  | memory m hi hm => exact ⟨hm hmem, hstack, himage, hwait, hrec⟩
  | _ => exact ⟨hmem, hstack, himage, hwait, hrec⟩

theorem advance_keeps_inv (h : s.Inv) (ha : advance s = .next t) : t.Inv := by
  rcases advance_cases s with ⟨-, e⟩ | ⟨-, hp, -, e⟩ | ⟨hf, hp, -, e⟩
  · cases e.symm.trans ha
    exact h
  · cases e.symm.trans ha
    obtain ⟨hmem, hstack, himage, -, -⟩ := h
    exact ⟨hmem, hstack, himage, fun _ => hp, rfl⟩
  · exact (exec_effect (e.symm.trans ha)).keeps_inv hf hp h

theorem stepBack_keeps_inv (h : s.Inv) (ha : stepBack s = .next t) : t.Inv := by
  unfold stepBack at ha
  split at ha
  · cases ha
    exact h
  · exact advance_keeps_inv (s := s.setPc (s.pc - 4)) h ha

theorem tickTimers_keeps_inv (h : s.Inv) : (tickTimers s).Inv := by
  unfold tickTimers
  split <;> exact h

theorem releaseKey_keeps_inv (k : KeyIx) (h : s.Inv) : (releaseKey k s).Inv := by
  unfold releaseKey
  split
  · exact h
  · obtain ⟨hmem, hstack, himage, -, hrec⟩ := h
    exact ⟨hmem, hstack, himage, fun _ => rfl, hrec⟩

theorem loadImage_keeps_inv (bytes : List Byte) (h : s.Inv) : (loadImage bytes s).Inv := by
  unfold loadImage
  split
  · obtain ⟨-, hstack, -, hwait, hrec⟩ := h
    exact ⟨Memory.ofImage_wf s.font bytes ‹_›, hstack, ‹_›, hwait, hrec⟩
  · exact h

theorem resetBlock_keeps_inv (h : s.Inv) : (resetBlock s).Inv := by
  obtain ⟨-, -, himage, -, -⟩ := h
  exact ⟨Memory.ofImage_wf s.font s.image himage, Nat.zero_le 16, himage, fun _ => rfl, rfl⟩

/-- Every host command keeps the invariant; the ones that write none of its components keep it as it stands. -/
theorem perform_keeps_inv {c : Command} (h : s.Inv) (hp : perform c s = .next t) : t.Inv := by
  cases c with
  | advance => exact advance_keeps_inv h hp
  | stepBack => exact stepBack_keeps_inv h hp
  | tickTimers => cases hp; exact tickTimers_keeps_inv h
  | release k => cases hp; exact releaseKey_keeps_inv k h
  | load bytes => cases hp; exact loadImage_keeps_inv bytes h
  | reset => cases hp; exact resetBlock_keeps_inv h
  | press _ | isDown _ | snapshot | getScreen | fetchAt _ | isPaused | pauseOrResume | readRegisters | readFault
  | readPending | readSound => cases hp; exact h

end Sys2Proof.Machine

namespace Sys2Proof.Proofs
open Machine

/-- Settles O59: a step is one transaction of the schedule, or none; the host's side is no part of the invariant. -/
theorem stepKeepsTheInvariant : Obligations.StepKeepsTheInvariant := by
  intro s t h hstep
  obtain ⟨cs, tail, e, -⟩ := step_eq_issue s
  rw [e] at hstep
  have hw : (s.withHost cs tail).Inv := h
  cases hc : s.hostSchedule 0 with
  | none =>
    rw [hc] at hstep
    cases hstep
    exact hw
  | some c =>
    rw [hc] at hstep
    exact perform_keeps_inv hw hstep

end Sys2Proof.Proofs
end

section
/-! SUPPORT. What the effects of an instruction leave unchanged, component by component (10_state.md R22, R25 to R30). -/

namespace Sys2Proof.Machine

namespace ExecEffect

variable {s t : State} {i : Instr}

/-- What belongs to the keys, the host or the configuration is written by no instruction. -/
theorem frame (he : ExecEffect s i t) :
    Frame [.regs, .index, .pc, .stack, .delay, .sound, .screen, .memory, .pending, .fault, .rng] s t := by
  intro c hc
  cases c with
  | keys => exact fun _ => by cases he <;> rfl
  | paused | image | font | schedule | hostTail | outputs => cases he <;> rfl
  | regs | index | pc | stack | delay | sound | screen | memory | pending | fault | rng => simp at hc

theorem reg_eq {k : RegIx} (he : ExecEffect s i t) (hk : i.mayWrite k = false) : t.reg k = s.reg k := by
  cases he with
  | regs v hv => exact hv k hk
  | random x nn b | drawn x y n g b =>
    exact (State.reg_setReg ..).trans (if_neg (by simpa [Instr.mayWrite] using hk))
  | _ => rfl

theorem pending_eq (he : ExecEffect s i t) : t.pending = s.pending ∨ ∃ x, i = .waitKey x := by
  cases he with
  | pending x => exact .inr ⟨x, rfl⟩
  | _ => exact .inl rfl

theorem stack_eq (he : ExecEffect s i t) : t.stack = s.stack ∨ i = .ret ∨ ∃ nnn, i = .call nnn := by
  cases he with
  | ret rest w hs => exact .inr (.inl rfl)
  | call nnn hs => exact .inr (.inr ⟨nnn, rfl⟩)
  | _ => exact .inl rfl

theorem index_eq (he : ExecEffect s i t) :
    t.I = s.I ∨ (∃ nnn, i = .setIndex nnn) ∨ (∃ x, i = .addIndex x) ∨ ∃ x, i = .fontGlyph x := by
  cases he with
  | index w hi => exact .inr hi
  | _ => exact .inl rfl

theorem delay_eq (he : ExecEffect s i t) : t.DT = s.DT ∨ ∃ x, i = .setDelay x := by
  cases he with
  | delay x b => exact .inr ⟨x, rfl⟩
  | _ => exact .inl rfl

theorem sound_eq (he : ExecEffect s i t) : t.ST = s.ST ∨ ∃ x, i = .setSound x := by
  cases he with
  | sound x b => exact .inr ⟨x, rfl⟩
  | _ => exact .inl rfl

theorem pixel_eq (he : ExecEffect s i t) :
    (∀ c r, t.pixel c r = s.pixel c r) ∨ i = .clearScreen ∨ ∃ x y n, i = .draw x y n := by
  cases he with
  | cleared => exact .inr (.inl rfl)
  | drawn x y n g b => exact .inr (.inr ⟨x, y, n, rfl⟩)
  | _ => exact .inl fun _ _ => rfl

theorem readByte_eq (he : ExecEffect s i t) :
    (∀ a, t.readByte a = s.readByte a) ∨ (∃ x, i = .bcd x) ∨ ∃ x, i = .storeRegs x := by
  cases he with
  | memory m hi hm => exact .inr hi
  | _ => exact .inl fun _ => rfl

theorem rngPos_eq (he : ExecEffect s i t) : t.rngPos = s.rngPos ∨ ∃ x nn, i = .setVxRnd x nn := by
  cases he with
  | random x nn b => exact .inr ⟨x, nn, rfl⟩
  | _ => exact .inl rfl

theorem paused_eq (he : ExecEffect s i t) : t.paused = s.paused := he.frame .paused (by decide)

end ExecEffect

end Sys2Proof.Machine

namespace Sys2Proof.Proofs
open Machine

/-- Settles O16: one lemma on the effects of an instruction for each component. -/
theorem onlyNamedInstructionsWriteEachComponent : Obligations.OnlyNamedInstructionsWriteEachComponent := by
  intro i s t h
  have he := exec_effect h
  exact ⟨he.frame, he.pending_eq, he.stack_eq, he.index_eq, he.delay_eq, he.sound_eq, he.pixel_eq, he.readByte_eq,
    he.rngPos_eq⟩

/-- Settles O17: the premises of the effects that write registers say which. -/
theorem registersAreWrittenOnlyWhereNamed : Obligations.RegistersAreWrittenOnlyWhereNamed :=
  fun _ _ _ _ h hk => (exec_effect h).reg_eq hk

end Sys2Proof.Proofs
end

section
/-! SUPPORT. The bound of 10_state.md R23 on pc: a fetched instruction lies below 0x1000, so pc + 2 and the skip stay
far below the largest target of Bnnn. -/

namespace Sys2Proof.Machine

variable {s t : State}

/-- The pc an instruction starts with is at most 0x1000: its fetch was in memory and pc + 2 has no wrap. -/
theorem toNat_add_two_le {w : Word} (h : w.toNat + 1 < 4096) : (w + 2).toNat ≤ 0x1000 := by
  bv_omega

theorem ExecEffect.keeps_pcBounded {i : Instr} (he : ExecEffect s i t) (hpc : s.pc.toNat ≤ 0x1000)
    (hst : ∀ w ∈ s.stack, w.toNat ≤ 0x1000) : t.pcBounded := by
  have hpc' : s.pc.toNat ≤ 0x10FE := hpc.trans (by decide)
  cases he with
  | pc w hw =>
    refine ⟨?_, hst⟩
    rcases hw with rfl | hw
    · show (s.pc + 2).toNat ≤ 0x10FE
      bv_omega
    · exact hw
  | ret rest w hs =>
    rw [hs] at hst
    exact ⟨(hst w (by simp)).trans (by decide), fun v hv => hst v (by simp [show v ∈ rest from hv])⟩
  | call nnn hs =>
    refine ⟨(addrOperand_toNat_le nnn).trans (by decide), fun v hv => ?_⟩
    rcases List.mem_append.mp hv with hv | hv
    · exact hst v hv
    · cases List.mem_singleton.mp hv
      exact hpc
  | _ => exact ⟨hpc', hst⟩

end Sys2Proof.Machine

namespace Sys2Proof.Proofs
open Machine

/-- Settles O60: an advance does nothing, latches a fetch fault, or executes from a pc of at most 0x1000. -/
theorem advanceKeepsPcBounded : Obligations.AdvanceKeepsPcBounded := by
  intro s t h ha
  rcases advance_cases s with ⟨-, e⟩ | ⟨-, -, -, e⟩ | ⟨-, -, hpc, e⟩
  · cases e.symm.trans ha
    exact h
  · cases e.symm.trans ha
    exact h
  · exact (exec_effect (e.symm.trans ha)).keeps_pcBounded (toNat_add_two_le hpc) h.2

end Sys2Proof.Proofs
end

section
/-! SUPPORT. The RNG position and the pause flag are beside the block: no instruction but RND reads or writes the first,
no transaction but is_paused, pause_or_resume and reset the second (10_state.md R30, R33, 60_exceptions.md R173). Both
are one update, withSide, that every other operation commutes with. -/

namespace Sys2Proof.Machine

/-- The RNG position and the pause flag moved, everything else kept. -/
def State.withSide (s : State) (f : Nat → Nat) (g : Bool → Bool) : State :=
  { s with rngPos := f s.rngPos, paused := g s.paused }

/-- An answer whose next state is updated. -/
def Result.mapNext (u : State → State) : Result → Result
  | .next t => .next (u t)
  | .fault r => .fault r
  | .refused r => .refused r

section
variable (s : State) (f : Nat → Nat) (g : Bool → Bool)

/-! ## The reads and the shared operations -/

@[simp] theorem State.pc_withSide : (s.withSide f g).pc = s.pc := rfl
@[simp] theorem State.stack_withSide : (s.withSide f g).stack = s.stack := rfl
@[simp] theorem State.base_withSide : (s.withSide f g).base = s.base := rfl
@[simp] theorem State.reg_withSide (x : RegIx) : (s.withSide f g).reg x = s.reg x := rfl
@[simp] theorem State.regRange_withSide (x : RegIx) : (s.withSide f g).regRange x = s.regRange x := rfl

theorem bytesAt_withSide (a n : Nat) : (s.withSide f g).bytesAt a n = s.bytesAt a n := by
  induction n generalizing a with
  | zero => rfl
  | succ n ih => exact congrArg (s.readByte a :: ·) (ih (a + 1))

theorem writeBytes_withSide (a : Nat) (bs : List Byte) :
    (s.withSide f g).writeBytes a bs = (s.writeBytes a bs).withSide f g := by
  induction bs generalizing s a with
  | nil => rfl
  | cons b bs ih => exact ih (s.writeByte a b) (a + 1)

theorem loadBytes_withSide (a n : Nat) : (s.withSide f g).loadBytes a n = s.loadBytes a n := by
  simp only [State.loadBytes, bytesAt_withSide]

theorem storeBytes_withSide (a : Nat) (bs : List Byte) :
    (s.withSide f g).storeBytes a bs = (s.storeBytes a bs).map (·.withSide f g) := by
  simp only [State.storeBytes, writeBytes_withSide]
  cases firstOutOfRange a bs.length <;> rfl

theorem push_withSide (w : Word) : (s.withSide f g).push w = (s.push w).map (·.withSide f g) := by
  unfold State.push
  rw [State.stack_withSide]
  split <;> rfl

theorem pop_withSide : (s.withSide f g).pop = s.pop.map (Prod.map id (·.withSide f g)) := by
  unfold State.pop
  rw [State.stack_withSide]
  cases s.stack.getLast? <;> rfl

theorem skipIf_withSide (c : Bool) : skipIf c (s.withSide f g) = (skipIf c s).withSide f g := by
  cases c <;> rfl

theorem skipOnKey_withSide (i : Instr) (x : RegIx) (wanted : Bool) :
    skipOnKey i x wanted (s.withSide f g) = Result.mapNext (·.withSide f g) (skipOnKey i x wanted s) := by
  simp only [skipOnKey, State.reg_withSide]
  cases keyOperand (s.reg x) with
  | none => rfl
  | some k => exact congrArg _ (skipIf_withSide s f g _)

/-! ## Every instruction -/

/-- An instruction does the same whatever the RNG position and the pause flag are, RND as long as the position stays. -/
theorem exec_withSide {i : Instr} (hi : f = id ∨ ∀ x nn, i ≠ .setVxRnd x nn) :
    exec i (s.withSide f g) = Result.mapNext (·.withSide f g) (exec i s) := by
  cases i with
  | setVxRnd x nn =>
    rcases hi with rfl | hi
    · rfl
    · exact absurd rfl (hi x nn)
  | ret =>
    simp only [exec, execRet, pop_withSide]
    cases s.pop <;> rfl
  | call nnn =>
    simp only [exec, execCall, push_withSide, State.pc_withSide]
    cases s.push s.pc <;> rfl
  | skipKeyDown x | skipKeyUp x => exact skipOnKey_withSide s f g _ x _
  | bcd x =>
    simp only [exec, execBcd, storeBytes_withSide, State.base_withSide, State.reg_withSide]
    cases s.storeBytes s.base (bcdDigits (s.reg x)) <;> rfl
  | storeRegs x =>
    simp only [exec, execStoreRegs, storeBytes_withSide, State.base_withSide, State.regRange_withSide]
    cases s.storeBytes s.base (s.regRange x) <;> rfl
  | loadRegs x =>
    simp only [exec, execLoadRegs, loadBytes_withSide, State.base_withSide]
    cases s.loadBytes s.base (x.val + 1) <;> rfl
  | draw x y n =>
    simp only [exec, execDraw, loadBytes_withSide, State.base_withSide]
    cases s.loadBytes s.base n.val <;> rfl
  | skipEqImm x nn | skipNeImm x nn | skipEqReg x y | skipNeReg x y => exact congrArg _ (skipIf_withSide s f g _)
  | nop | clearScreen | jump _ | jumpV0 _ | setIndex _ | unknown _ => rfl
  | setVxImm _ _ | addVxImm _ _ | setVxVy _ _ | orVxVy _ _ | andVxVy _ _ | xorVxVy _ _ => rfl
  | addVxVy _ _ | subVxVy _ _ | rShiftVx _ _ | subVyVx _ _ | lShiftVx _ _ => rfl
  | getDelay _ | waitKey _ | setDelay _ | setSound _ | addIndex _ | fontGlyph _ => rfl

/-! ## The pause flag, for every transaction -/

variable (b : Bool)

theorem exec_setPaused (i : Instr) :
    exec i (s.setPaused b) = Result.mapNext (·.setPaused b) (exec i s) :=
  exec_withSide s id (fun _ => b) (.inl rfl)

theorem advance_setPaused : advance (s.setPaused b) = Result.mapNext (·.setPaused b) (advance s) := by
  simp only [advance, State.setPaused_fault, State.setPaused_pending,
    show (s.setPaused b).fetch = s.fetch from rfl]
  split
  · rfl
  · split
    · rfl
    · cases s.fetch with
      | none => rfl
      | some op => exact exec_setPaused (s.setPc (s.pc + 2)) b (decode op)

theorem stepBack_setPaused : stepBack (s.setPaused b) = Result.mapNext (·.setPaused b) (stepBack s) := by
  unfold stepBack
  rw [State.setPaused_fault]
  split
  · rfl
  · exact advance_setPaused (s.setPc (s.pc - 4)) b

theorem tickTimers_setPaused : tickTimers (s.setPaused b) = (tickTimers s).setPaused b := by
  unfold tickTimers
  rw [State.setPaused_ST]
  split <;> rfl

theorem releaseKey_setPaused (k : KeyIx) : releaseKey k (s.setPaused b) = (releaseKey k s).setPaused b := by
  simp only [releaseKey, State.setPaused_pending]
  cases s.pending <;> rfl

theorem loadImage_setPaused (bytes : List Byte) :
    loadImage bytes (s.setPaused b) = (loadImage bytes s).setPaused b := by
  unfold loadImage
  split <;> rfl

/-- Decision D19, command by command. -/
theorem perform_setPaused {c : Command} (hq : c ≠ .isPaused) (hp : c ≠ .pauseOrResume) (hr : c ≠ .reset) :
    perform c (s.setPaused b) = Result.mapNext (·.setPaused b) (perform c s) := by
  cases c with
  | advance => exact advance_setPaused s b
  | stepBack => exact stepBack_setPaused s b
  | tickTimers => exact congrArg _ (tickTimers_setPaused s b)
  | release k => exact congrArg _ (releaseKey_setPaused s b k)
  | load bytes => exact congrArg _ (loadImage_setPaused s b bytes)
  | isPaused => exact absurd rfl hq
  | pauseOrResume => exact absurd rfl hp
  | reset => exact absurd rfl hr
  | press _ | isDown _ | snapshot | getScreen | fetchAt _ | readRegisters | readFault | readPending | readSound => rfl

theorem frame_setPaused : Frame [.paused] s (s.setPaused b) := by
  intro c hc
  cases c with
  | paused => simp at hc
  | regs | memory | keys => exact fun _ => rfl
  | screen => exact fun _ _ => rfl
  | index | pc | stack | delay | sound | pending | fault | image | rng | font | schedule | hostTail | outputs => rfl

end

end Sys2Proof.Machine

namespace Sys2Proof.Proofs
open Machine

/-- Settles O18: the RNG position is moved and the pause flag kept. -/
theorem onlyRndReadsTheRandomSource : Obligations.OnlyRndReadsTheRandomSource := by
  intro i s t n hi h
  have hside : exec i (s.withSide (fun _ => n) id) = Result.mapNext (·.withSide (fun _ => n) id) (exec i s) :=
    exec_withSide s (fun _ => n) id (.inr hi)
  rw [h] at hside
  exact hside

/-- Settles O19: what pause_or_resume does is one setPaused, and every other transaction commutes with that. -/
theorem pauseFlagGatesNothing : Obligations.PauseFlagGatesNothing := by
  refine ⟨fun s => ⟨_, rfl, rfl, frame_setPaused s _⟩, fun c s t b hq hp hr h => ?_⟩
  have hpaused := perform_setPaused s b hq hp hr
  rw [h] at hpaused
  exact hpaused

end Sys2Proof.Proofs
end

section
/-! SUPPORT. Two layers the memory statements share: a step of a host that advances, by the cases of an advance
(40_execution_cycle.md R80), and what a range written to memory, or a word placed at pc, leaves unchanged
(20_memory.md R43, R44, R53, log 7). -/

namespace Sys2Proof.Machine

variable {s : State}

/-! ## A step of a host that advances -/

theorem step_of_hostAdvances (h : s.hostAdvances) : step s = advance s := by
  obtain ⟨hs, ht⟩ := h
  simpa [hs, ht] using step_cases s

theorem advance_of_fetch_fails (hf : s.fault = none) (hp : s.pending = none) (hpc : 4096 ≤ s.pc.toNat + 1) :
    advance s = .next { s with fault := some ⟨.fetchOutOfRange, s.pc, none, s.pc.toNat⟩ } := by
  rcases advance_cases s with ⟨hf' | hp', -⟩ | ⟨-, -, -, e⟩ | ⟨-, -, hpc', -⟩
  · exact absurd hf hf'
  · exact absurd hp hp'
  · exact e
  · omega

theorem advance_of_fetch_succeeds (hf : s.fault = none) (hp : s.pending = none) (hpc : s.pc.toNat + 1 < 4096) :
    advance s = exec (decode (wordOfBytes (s.readByte s.pc.toNat) (s.readByte (s.pc.toNat + 1))))
      (s.setPc (s.pc + 2)) := by
  rcases advance_cases s with ⟨hf' | hp', -⟩ | ⟨-, -, hpc', -⟩ | ⟨-, -, -, e⟩
  · exact absurd hf hf'
  · exact absurd hp hp'
  · omega
  · exact e

/-- A ready state runs the word at pc. -/
theorem step_of_ready (h : s.ready) :
    step s = exec (decode (wordOfBytes (s.readByte s.pc.toNat) (s.readByte (s.pc.toNat + 1))))
      (s.setPc (s.pc + 2)) := by
  obtain ⟨hhost, hf, hp, hpc⟩ := h
  rw [step_of_hostAdvances hhost, advance_of_fetch_succeeds hf hp hpc]

/-! ## A range written to memory -/

theorem readByte_writeBytes_add {base k : Nat} {bs : List Byte} (hk : k < bs.length) :
    (s.writeBytes base bs).readByte (base + k) = bs[k] := by
  rw [State.readByte_writeBytes, dif_pos (by omega)]
  simp only [Nat.add_sub_cancel_left]

theorem readByte_writeBytes_of_outside {base a : Nat} {bs : List Byte} (ha : a < base ∨ base + bs.length ≤ a) :
    (s.writeBytes base bs).readByte a = s.readByte a := by
  rw [State.readByte_writeBytes, dif_neg (by omega)]

theorem frame_writeBytes (s : State) (base : Nat) (bs : List Byte) : Frame [.memory] s (s.writeBytes base bs) := by
  rw [State.writeBytes_eq]
  intro c hc
  cases c with
  | memory => simp at hc
  | regs | keys => exact fun _ => rfl
  | screen => exact fun _ _ => rfl
  | index | pc | stack | delay | sound | pending | paused | fault => rfl
  | image | rng | font | schedule | hostTail | outputs => rfl

/-- A write to memory does not keep the next step from fetching. -/
theorem ready_writeBytes (h : s.ready) (base : Nat) (bs : List Byte) : (s.writeBytes base bs).ready := by
  rw [State.writeBytes_eq]
  exact h

/-! ## A word placed at pc (log 7) -/

@[simp] theorem bytesOfWord_length (op : Word) : (bytesOfWord op).length = 2 := rfl

/-- Placing a word at a pc that can be fetched writes memory and clears what would keep it from being fetched. -/
theorem placeWord_eq (hpc : s.pc.toNat + 1 < 4096) (op : Word) :
    s.placeWord op = { s with mem := (s.writeBytes s.pc.toNat (bytesOfWord op)).mem, fault := none, pending := none,
                              schedule := [], hostTail := .advances } := by
  simp only [State.placeWord, Config.memSize, if_pos hpc]
  rw [State.writeBytes_eq]

theorem readByte_placeWord (hpc : s.pc.toNat + 1 < 4096) (op : Word) (a : Nat) :
    (s.placeWord op).readByte a = (s.writeBytes s.pc.toNat (bytesOfWord op)).readByte a := by
  rw [placeWord_eq hpc, State.writeBytes_eq]
  rfl

theorem ready_placeWord (hpc : s.pc.toNat + 1 < 4096) (op : Word) : (s.placeWord op).ready := by
  rw [placeWord_eq hpc]
  exact ⟨⟨rfl, rfl⟩, rfl, rfl, hpc⟩

theorem wordAt_placeWord (hpc : s.pc.toNat + 1 < 4096) (op : Word) :
    wordOfBytes ((s.placeWord op).readByte s.pc.toNat) ((s.placeWord op).readByte (s.pc.toNat + 1)) = op := by
  have hhi : (s.placeWord op).readByte s.pc.toNat = op.extractLsb' 8 8 :=
    (readByte_placeWord hpc op _).trans (readByte_writeBytes_add (k := 0) (by simp))
  have hlo : (s.placeWord op).readByte (s.pc.toNat + 1) = op.extractLsb' 0 8 :=
    (readByte_placeWord hpc op _).trans (readByte_writeBytes_add (by simp))
  rw [hhi, hlo, wordOfBytes_bytes]

theorem step_placeWord (hpc : s.pc.toNat + 1 < 4096) (op : Word) :
    step (s.placeWord op) = exec (decode op) ((s.placeWord op).setPc (s.pc + 2)) := by
  have hpc' : (s.placeWord op).pc = s.pc := by rw [placeWord_eq hpc]
  rw [step_of_ready (ready_placeWord hpc op), hpc', wordAt_placeWord hpc]

theorem frame_placeWord_setPc (hpc : s.pc.toNat + 1 < 4096) (op w : Word) :
    Frame [.pc, .fault, .pending, .schedule, .hostTail, .memory] s ((s.placeWord op).setPc w) := by
  rw [placeWord_eq hpc]
  intro c hc
  cases c with
  | pc | fault | pending | schedule | hostTail | memory => simp at hc
  | regs | keys => exact fun _ => rfl
  | screen => exact fun _ _ => rfl
  | index | stack | delay | sound | paused | image | rng | font | outputs => rfl

end Sys2Proof.Machine

namespace Sys2Proof.Proofs
open Machine

/-- Settles O9: the placed state is ready and its word at pc is the one placed. -/
theorem placedWordRunsNext : Obligations.PlacedWordRunsNext := by
  intro s w hpc
  obtain ⟨-, hfault, -, -⟩ := ready_placeWord hpc (BitVec.ofNat 16 w)
  refine ⟨_, step_placeWord hpc (BitVec.ofNat 16 w), rfl, hfault, fun a h0 h1 => ?_, frame_placeWord_setPc hpc _ _⟩
  exact (readByte_placeWord hpc _ a).trans (readByte_writeBytes_of_outside (by rw [bytesOfWord_length]; omega))

/-- Settles O39: in each instruction's case lemma the access that fits is excluded, and the raise finds no record. -/
theorem dataPastMemoryLatches : Obligations.DataPastMemoryLatches := by
  intro s hf
  refine ⟨fun x h => ?bcd, fun x h => ?store, fun x h => ?load, fun x y n h0 h => ?draw⟩
  case bcd =>
    rcases execBcd_cases x s with ⟨hin, -⟩ | ⟨-, e⟩
    · omega
    · exact e.trans (raise_of_none _ _ _ hf)
  case store =>
    rcases execStoreRegs_cases x s with ⟨hin, -⟩ | ⟨-, e⟩
    · omega
    · exact e.trans (raise_of_none _ _ _ hf)
  case load =>
    rcases execLoadRegs_cases x s with ⟨hin, -⟩ | ⟨-, e⟩
    · omega
    · exact e.trans (raise_of_none _ _ _ hf)
  case draw =>
    rcases execDraw_cases x y n s with ⟨hin, -⟩ | ⟨-, -, e⟩
    · omega
    · exact e.trans (raise_of_none _ _ _ hf)

/-- Settles O41: the state after the store is ready, and the bytes at pc are the first two of the range stored. -/
theorem storedWordIsFetchedNext : Obligations.StoredWordIsFetchedNext := by
  intro s x hready hI hx hin
  have hstore : exec (.storeRegs x) s = .next (s.writeBytes s.I.toNat (s.regRange x)) := by
    rcases execStoreRegs_cases x s with ⟨-, e⟩ | ⟨hout, -⟩
    · exact e
    · omega
  refine ⟨_, hstore, ?_⟩
  have hlen := s.regRange_length x
  have hhi : (s.writeBytes s.I.toNat (s.regRange x)).readByte s.pc.toNat = s.reg 0 := by
    rw [← hI]
    exact (readByte_writeBytes_add (k := 0) (by omega)).trans (s.regRange_getElem x 0 _ (by omega))
  have hlo : (s.writeBytes s.I.toNat (s.regRange x)).readByte (s.pc.toNat + 1) = s.reg 1 := by
    rw [← hI]
    exact (readByte_writeBytes_add (by omega)).trans (s.regRange_getElem x 1 _ (by omega))
  rw [step_of_ready (ready_writeBytes hready _ _), State.writeBytes_pc, hhi, hlo]
  rfl

/-- Settles O10: the host's advance, in the case where the fetch fails. -/
theorem fetchPastMemoryLatches : Obligations.FetchPastMemoryLatches :=
  fun _ hhost hf hp hpc => (step_of_hostAdvances hhost).trans (advance_of_fetch_fails hf hp hpc)

/-- Settles O35: the cases of a range load and a range store, for a range of one byte. -/
theorem singleByteAccessIsBoundsChecked : Obligations.SingleByteAccessIsBoundsChecked := by
  intro s a v
  have hload := s.loadBytes_cases a 1
  have hstore := s.storeBytes_cases a [v]
  rw [List.length_singleton] at hstore
  refine ⟨fun ha => ?read, fun ha => ?readOutside, fun ha => ?write, fun ha => ?writeOutside⟩
  case read =>
    rcases hload with ⟨-, e⟩ | ⟨-, hout, -⟩
    · exact e
    · omega
  case readOutside =>
    rcases hload with ⟨hin, -⟩ | ⟨-, -, e⟩
    · omega
    · rw [e, max_eq_left ha]
  case write =>
    rcases hstore with ⟨-, e⟩ | ⟨-, hout, -⟩
    · exact ⟨_, e, fun b => s.readByte_writeByte a b v, frame_writeBytes s a [v]⟩
    · omega
  case writeOutside =>
    rcases hstore with ⟨hin, -⟩ | ⟨-, -, e⟩
    · omega
    · rw [e, max_eq_left ha]

end Sys2Proof.Proofs
end

section
/-! SUPPORT. The encoder after the decoder (30_encoding.md R68): the fields of a word, put together again in its format,
give the word back, family by family of the decoder. -/

namespace Sys2Proof

variable {op : Word} {d : BitVec 4}

/-! ## A word from its fields (R61, R62) -/

theorem d1Field_append_xField (op : Word) : d1Field op ++ regBits (xField op) = op.extractLsb' 8 8 :=
  BitVec.extractLsb'_append_extractLsb'_eq_extractLsb' rfl

theorem yField_append_nField (op : Word) : regBits (yField op) ++ regBits (nField op) = nnField op :=
  BitVec.extractLsb'_append_extractLsb'_eq_extractLsb' rfl

theorem encodeXNN_fields (hd : (d1Field op).toNat = d.toNat) : encodeXNN d (xField op) (nnField op) = op := by
  rw [← BitVec.eq_of_toNat_eq hd, encodeXNN, d1Field_append_xField]
  exact wordOfBytes_bytes op

/-- Format X: the low byte is the operation's own. -/
theorem encodeXNN_of_nnField {nn : Byte} (hd : (d1Field op).toNat = d.toNat) (hnn : nnField op = nn) :
    encodeXNN d (xField op) nn = op :=
  hnn ▸ encodeXNN_fields hd

/-- Formats XY and XYN: the last nibble is the operation's own, or its count. -/
theorem encodeXYN_of_nField {n : BitVec 4} (hd : (d1Field op).toNat = d.toNat) (hn : (nField op).val = n.toNat) :
    encodeXYN d (xField op) (yField op) n = op := by
  have hn' : regBits (nField op) = n := BitVec.eq_of_toNat_eq hn
  calc encodeXYN d (xField op) (yField op) n
      = d ++ regBits (xField op) ++ (regBits (yField op) ++ n) := BitVec.append_assoc
    _ = encodeXNN d (xField op) (nnField op) := by rw [← hn', yField_append_nField]; rfl
    _ = op := encodeXNN_fields hd

theorem encodeAddr_fields (hd : (d1Field op).toNat = d.toNat) : encodeAddr d (nnnField op) = op := by
  rw [← BitVec.eq_of_toNat_eq hd]
  exact BitVec.extractLsb'_append_extractLsb'

/-! ## The families of the decoder (R67) -/

theorem encode_ite {c : Prop} [Decidable c] {i j : Instr} (hi : c → encode i = op) (hj : encode j = op) :
    encode (if c then i else j) = op := by
  split_ifs with hc
  · exact hi hc
  · exact hj

theorem encode_decodeZero (op : Word) : encode (decodeZero op) = op :=
  encode_ite Eq.symm (encode_ite Eq.symm (encode_ite Eq.symm rfl))

theorem encode_decodeAlu (hd : (d1Field op).toNat = 0x8) : encode (decodeAlu op) = op := by
  unfold decodeAlu
  split
  case h_10 => rfl
  all_goals exact encodeXYN_of_nField hd ‹_›

theorem encode_decodeKey (hd : (d1Field op).toNat = 0xE) : encode (decodeKey op) = op :=
  encode_ite (encodeXNN_of_nnField hd) (encode_ite (encodeXNN_of_nnField hd) rfl)

theorem encode_decodeMisc (hd : (d1Field op).toNat = 0xF) : encode (decodeMisc op) = op := by
  unfold decodeMisc
  iterate 9 refine encode_ite (encodeXNN_of_nnField hd) ?_
  rfl

theorem encode_decode (op : Word) : encode (decode op) = op := by
  unfold decode
  split
  case h_1 => exact encode_decodeZero op
  case h_9 hd => exact encode_decodeAlu hd
  case h_15 hd => exact encode_decodeKey hd
  case h_16 =>
    have hlt := (d1Field op).isLt
    exact encode_decodeMisc (by grind)
  case h_6 hd | h_10 hd => exact encode_ite (fun hn => encodeXYN_of_nField hd (congrArg Fin.val hn)) rfl
  case h_14 hd => exact encodeXYN_of_nField hd rfl
  case h_2 hd | h_3 hd | h_11 hd | h_12 hd => exact encodeAddr_fields hd
  case h_4 hd | h_5 hd | h_7 hd | h_8 hd | h_13 hd => exact encodeXNN_fields hd

end Sys2Proof

namespace Sys2Proof.Proofs

/-- Settles O2: each family of the decoder round-trips, so the encoder is a left inverse of the decoder. -/
theorem encodeOfDecodeIsIdentity : Obligations.EncodeOfDecodeIsIdentity :=
  ⟨encode_decode, Function.LeftInverse.injective encode_decode, fun _ => rfl⟩

end Sys2Proof.Proofs
end

section
/-! SUPPORT. The decoder and the opcode map (30_encoding.md R65). The operation a word decodes to is read from the bits
under the mask of its family, and under that mask a word is the match value of the row that takes it. -/

namespace Sys2Proof

variable {op v : Word}

/-! ## The bits that select the operation -/

/-- The mask of the rows of R65 whose first nibble is d. -/
def familyMask (d : BitVec 4) : Word :=
  match d.toNat with
  | 0x0 => 0xFFFF
  | 0x5 | 0x8 | 0x9 => 0xF00F
  | 0xE | 0xF => 0xF0FF
  | _ => 0xF000

theorem mask_eq_familyMask : ∀ r ∈ opcodeRows, r.mask = familyMask (d1Field r.value) := by decide

theorem extractLsb'_and_of_ones {mask : Word} {start len : Nat}
    (h : mask.extractLsb' start len = BitVec.allOnes len) :
    (op &&& mask).extractLsb' start len = op.extractLsb' start len := by
  rw [BitVec.extractLsb'_and, h, BitVec.and_allOnes]

theorem d1Field_and_familyMask (op : Word) (d : BitVec 4) : d1Field (op &&& familyMask d) = d1Field op :=
  extractLsb'_and_of_ones (by revert d; decide)

theorem nField_and_maskXY (op : Word) : nField (op &&& 0xF00F) = nField op :=
  congrArg BitVec.toFin (extractLsb'_and_of_ones (start := 0) (len := 4) rfl)

theorem nnField_and_maskX (op : Word) : nnField (op &&& 0xF0FF) = nnField op :=
  extractLsb'_and_of_ones rfl

/-! ## The operation of a word -/

theorem mnemonic_decodeAlu_congr (hn : nField v = nField op) :
    (decodeAlu op).mnemonic? = (decodeAlu v).mnemonic? := by
  simp only [decodeAlu, hn]
  split <;> rfl

theorem mnemonic_decodeKey_congr (hnn : nnField v = nnField op) :
    (decodeKey op).mnemonic? = (decodeKey v).mnemonic? := by
  simp only [decodeKey, hnn, apply_ite Instr.mnemonic?]
  rfl

theorem mnemonic_decodeMisc_congr (hnn : nnField v = nnField op) :
    (decodeMisc op).mnemonic? = (decodeMisc v).mnemonic? := by
  simp only [decodeMisc, hnn, apply_ite Instr.mnemonic?]
  rfl

/-- A word decodes to the operation of what the mask of its family leaves of it. -/
theorem mnemonic_decode_of_masked (h : op &&& familyMask (d1Field v) = v) :
    (decode op).mnemonic? = (decode v).mnemonic? := by
  have hd : d1Field v = d1Field op := (congrArg d1Field h).symm.trans (d1Field_and_familyMask op _)
  rw [hd] at h
  unfold decode
  rw [hd]
  split
  case h_1 hzero =>
    simp only [familyMask, hzero] at h
    rw [show op = v from BitVec.and_allOnes.symm.trans h]
  case h_9 halu =>
    simp only [familyMask, halu] at h
    exact mnemonic_decodeAlu_congr (h ▸ nField_and_maskXY op)
  case h_15 hkey =>
    simp only [familyMask, hkey] at h
    exact mnemonic_decodeKey_congr (h ▸ nnField_and_maskX op)
  case h_16 =>
    have hlt := (d1Field op).isLt
    have hmisc : (d1Field op).toNat = 0xF := by grind
    simp only [familyMask, hmisc] at h
    exact mnemonic_decodeMisc_congr (h ▸ nnField_and_maskX op)
  case h_6 hskip | h_10 hskip =>
    simp only [familyMask, hskip] at h
    have hn : nField v = nField op := h ▸ nField_and_maskXY op
    simp only [hn, apply_ite Instr.mnemonic?]
    rfl
  all_goals rfl

theorem eq_unknown_of_mnemonic_eq_none {i : Instr} (h : i.mnemonic? = none) : i = .unknown (encode i) := by
  cases i with
  | unknown op => rfl
  | _ => cases h

theorem wf_of_mnemonic_eq_some {i : Instr} {m : String} (h : i.mnemonic? = some m) : i.wf = true := by
  cases i with
  | unknown op => cases h
  | _ => rfl

/-! ## The rows of the opcode map -/

theorem takes_iff {r : OpcodeRow} : r.takes op = true ↔ op &&& r.mask = r.value := beq_iff_eq

theorem recognised_eq_false_iff : recognised op = false ↔ ∀ r ∈ opcodeRows, r.takes op = false := by
  simp [recognised]

/-- Two rows that take one word have match values that agree where both masks are set. -/
theorem value_and_mask_of_takes {r q : OpcodeRow} (hr : r.takes op = true) (hq : q.takes op = true) :
    r.value &&& q.mask = q.value &&& r.mask := by
  rw [← takes_iff.mp hr, ← takes_iff.mp hq, BitVec.and_assoc, BitVec.and_assoc, BitVec.and_comm r.mask]

theorem value_and_mask_pairwise_ne :
    opcodeRows.Pairwise (fun r q => r.value &&& q.mask ≠ q.value &&& r.mask) := by decide

theorem mnemonic_decode_value : ∀ r ∈ opcodeRows, (decode r.value).mnemonic? = some r.mnemonic := by decide

theorem mnemonic_decode_of_takes {r : OpcodeRow} (hr : r ∈ opcodeRows) (h : r.takes op = true) :
    (decode op).mnemonic? = some r.mnemonic := by
  rw [takes_iff, mask_eq_familyMask r hr] at h
  exact (mnemonic_decode_of_masked h).trans (mnemonic_decode_value r hr)

theorem decode_wf (op : Word) : (decode op).wf = true := by
  cases hm : (decode op).mnemonic? with
  | some m => exact wf_of_mnemonic_eq_some hm
  | none =>
    have hrec : recognised op = false := recognised_eq_false_iff.mpr fun r hr =>
      Bool.eq_false_iff.mpr fun ht => by simp [mnemonic_decode_of_takes hr ht] at hm
    rw [eq_unknown_of_mnemonic_eq_none hm, encode_decode]
    simp [Instr.wf, hrec]

/-- The family of Laws/PerInstr.lean, for every instruction. -/
theorem encode_fits_row (i : Instr) : Laws.EncodeFitsRow.Statement i :=
  open Laws.EncodeFitsRow in
  i.casesOn nop clearScreen ret jump call skipEqImm skipNeImm skipEqReg setVxImm addVxImm setVxVy orVxVy andVxVy xorVxVy
    addVxVy subVxVy rShiftVx subVyVx lShiftVx skipNeReg setIndex jumpV0 setVxRnd draw skipKeyDown skipKeyUp getDelay
    waitKey setDelay setSound addIndex fontGlyph bcd storeRegs loadRegs unknown

/-- A decoded operation other than Unknown would put its word in its own row. -/
theorem decode_of_not_recognised (h : recognised op = false) : decode op = .unknown op := by
  have hfits := encode_fits_row (decode op) (decode_wf op)
  rw [encode_decode] at hfits
  cases hm : (decode op).mnemonic? with
  | none => rw [eq_unknown_of_mnemonic_eq_none hm, encode_decode]
  | some m =>
    rw [hm] at hfits
    obtain ⟨r, hr, -, ht⟩ := hfits
    rw [recognised_eq_false_iff.mp h r hr] at ht
    cases ht

end Sys2Proof

namespace Sys2Proof.Proofs

/-- Settles O3: two rows differ in a bit under both their masks; a word has the operation of the match value of the row
that takes it; and what it decodes to lies in that operation's row. -/
theorem decodeFollowsTheOpcodeMap : Obligations.DecodeFollowsTheOpcodeMap := by
  refine ⟨value_and_mask_pairwise_ne.imp fun hne op htakes => ?disjoint,
    fun r hr op htakes => mnemonic_decode_of_takes hr htakes,
    fun op hnone => decode_of_not_recognised (recognised_eq_false_iff.mpr hnone), decode_wf⟩
  case disjoint =>
    obtain ⟨hr, hq⟩ := htakes
    exact hne (value_and_mask_of_takes hr hq)

end Sys2Proof.Proofs
end

section
/-! SUPPORT. The decoder after the encoder (30_encoding.md R67, R68), format by format: each field of an encoded word
reads back its operand (Laws/Decode.lean), and the selector fields read back the operation's own digits. -/

namespace Sys2Proof

theorem decode_encode {i : Instr} (h : i.wf = true) : decode (encode i) = i := by
  cases i with
  | unknown op => exact decode_of_not_recognised (Laws.EncodeFitsRow.unknown op h)
  | nop | clearScreen | ret => rfl
  | jump | call | setIndex | jumpV0 => simp [encode, decode]
  | skipEqImm | skipNeImm | setVxImm | addVxImm | setVxRnd => simp [encode, decode]
  | skipEqReg | skipNeReg | draw => simp [encode, decode]
  | setVxVy | orVxVy | andVxVy | xorVxVy => simp [encode, decode, decodeAlu]
  | addVxVy | subVxVy | rShiftVx | subVyVx | lShiftVx => simp [encode, decode, decodeAlu]
  | skipKeyDown | skipKeyUp => simp [encode, decode, decodeKey]
  | getDelay | waitKey | setDelay | setSound | addIndex => simp [encode, decode, decodeMisc]
  | fontGlyph | bcd | storeRegs | loadRegs => simp [encode, decode, decodeMisc]

end Sys2Proof

namespace Sys2Proof.Proofs

/-- Settles O1: the fields read back the operands; Unknown of a word no row takes is what that word decodes to. -/
theorem decodeOfEncodeIsIdentity : Obligations.DecodeOfEncodeIsIdentity := fun _ h => decode_encode h

/-- Settles O13: a step issues one host command or none, and each answers a next state. -/
theorem everyStepAnswersANextState : Obligations.EveryStepAnswersANextState := Machine.step_next

/-- Settles O4: the decoder runs on each of the nine words. -/
theorem specEncodingsDecode : Obligations.SpecEncodingsDecode := by
  unfold Obligations.SpecEncodingsDecode
  decide

end Sys2Proof.Proofs
end

section
/-! SUPPORT. The execution cycle in its paths (40_execution_cycle.md R80, R84): a command issued to the block, an advance
that does nothing, and what each host command does to a latched record (60_exceptions.md R155). -/

namespace Sys2Proof.Machine

variable {s t : State} {r : FaultRecord}

/-! ## A command taken from the schedule -/

/-- Taking a command changes the host's side only. -/
theorem takeCommand_eq_withHost {c : Command} (h : s.takeCommand = some (c, t)) :
    ∃ cs tail, t = s.withHost cs tail := by
  unfold State.takeCommand at h
  split at h
  next rest _ =>
    cases h
    exact ⟨rest, s.hostTail, rfl⟩
  next =>
    split at h
    next =>
      cases h
      exact ⟨s.schedule, s.hostTail, rfl⟩
    next n _ =>
      cases h
      exact ⟨s.schedule, .free (n + 1), rfl⟩
    next => cases h

theorem step_of_takeCommand {c : Command} (h : s.takeCommand = some (c, t)) : step s = perform c t := by
  simp only [step, nextTransaction, h]

/-! ## The paths on which an advance fetches nothing -/

theorem advance_of_faulted_or_waiting (h : s.fault ≠ none ∨ s.pending ≠ none) : advance s = .next s := by
  rcases advance_cases s with ⟨-, e⟩ | ⟨hf, hp, -, -⟩ | ⟨hf, hp, -, -⟩
  · exact e
  · simp [hf, hp] at h
  · simp [hf, hp] at h

theorem stepBack_of_faulted (h : s.fault ≠ none) : stepBack s = .next s :=
  if_pos (Option.isSome_iff_ne_none.mpr h)

theorem frame_fault (s : State) (f : Option FaultRecord) : Frame [.fault] s { s with fault := f } := by
  intro c hc
  cases c with
  | fault => simp at hc
  | regs | memory | keys => exact fun _ => rfl
  | screen => exact fun _ _ => rfl
  | index | pc | stack | delay | sound | pending | paused | image | rng | font | schedule | hostTail | outputs => rfl

/-! ## The latch under the host's commands -/

@[simp] theorem tickTimers_fault (s : State) : (tickTimers s).fault = s.fault := by
  unfold tickTimers
  split <;> rfl

@[simp] theorem releaseKey_fault (k : KeyIx) (s : State) : (releaseKey k s).fault = s.fault := by
  unfold releaseKey
  split <;> rfl

@[simp] theorem loadImage_fault (bytes : List Byte) (s : State) : (loadImage bytes s).fault = s.fault := by
  unfold loadImage
  split <;> rfl

/-- No host command but reset does anything to a latched record. -/
theorem perform_keeps_latched {c : Command} (hf : s.fault = some r) (hc : c ≠ .reset) (hp : perform c s = .next t) :
    t.fault = some r := by
  have hne : s.fault ≠ none := by simp [hf]
  cases c with
  | advance =>
    cases (advance_of_faulted_or_waiting (.inl hne)).symm.trans hp
    exact hf
  | stepBack =>
    cases (stepBack_of_faulted hne).symm.trans hp
    exact hf
  | tickTimers => cases hp; exact (tickTimers_fault s).trans hf
  | release k => cases hp; exact (releaseKey_fault k s).trans hf
  | load bytes => cases hp; exact (loadImage_fault bytes s).trans hf
  | reset => exact absurd rfl hc
  | press _ | isDown _ | snapshot | getScreen | fetchAt _ | isPaused | pauseOrResume | readRegisters | readFault
  | readPending | readSound => cases hp; exact hf

end Sys2Proof.Machine

namespace Sys2Proof.Proofs
open Machine

/-- Settles O6: the paths of an advance, each under its own condition. -/
theorem advanceFetchesDecodesExecutes : Obligations.AdvanceFetchesDecodesExecutes := by
  intro s
  refine ⟨fun hf => ?faulted, fun hp => ?waiting, fun hf hp hpc => ?fetchFails, fun b hf hp hpc => ?executes⟩
  case faulted => exact advance_of_faulted_or_waiting (.inl hf)
  case waiting => exact advance_of_faulted_or_waiting (.inr hp)
  case fetchFails => exact ⟨_, advance_of_fetch_fails hf hp hpc, ⟨_, rfl, rfl, rfl⟩, frame_fault s _⟩
  case executes => exact advance_of_fetch_succeeds (s := s.setPaused b) hf hp hpc

/-- Settles O11: advance and step_back are stopped by the latch, and no other command but reset writes it. -/
theorem faultLatchStaysUntilReset : Obligations.FaultLatchStaysUntilReset := by
  intro s r hf
  have hne : s.fault ≠ none := by simp [hf]
  exact ⟨advance_of_faulted_or_waiting (.inl hne), stepBack_of_faulted hne, fun _ _ => perform_keeps_latched hf,
    resetBlock s, rfl, rfl⟩

/-- Settles O14: an instruction that does not raise leaves the latch as it was, and a raise writes the record only. -/
theorem faultingInstructionWritesOnlyTheRecord : Obligations.FaultingInstructionWritesOnlyTheRecord := by
  intro i s t hf h hlatched
  rcases exec_raises_or_keeps_latch i s with ⟨kind, info, -, e⟩ | ⟨t', e, hkeep⟩
  · cases (e.trans (raise_of_none i kind info hf)).symm.trans h
    exact ⟨kind, info, rfl⟩
  · cases e.symm.trans h
    exact absurd (hkeep.trans hf) hlatched

/-- Settles O5: the advance is performed on the state with another host's side, where its fetch succeeds. -/
theorem stepRunsTheDecodedInstruction : Obligations.StepRunsTheDecodedInstruction := by
  refine ⟨fun s h => step_of_ready h, fun s s' htake hf hp hpc => ?_⟩
  obtain ⟨cs, tail, rfl⟩ := takeCommand_eq_withHost htake
  exact (step_of_takeCommand htake).trans (advance_of_fetch_succeeds (s := s.withHost cs tail) hf hp hpc)

/-- Settles O26: Unknown raises, and its canonical word is the opcode itself. -/
theorem unknownLatches : Obligations.UnknownLatches :=
  fun _ op hf => raise_of_none (.unknown op) .unknownOpcode op.toNat hf

end Sys2Proof.Proofs
end

section
/-! SUPPORT. Control flow (41_control_flow.md): which word is which operation, as a corollary of the round trips of the
encoder, and what a write to pc, a skip and the targets of the jumps are. -/

namespace Sys2Proof

/-! ## Words of an operation (30_encoding.md R66, R68) -/

/-- A well-formed operation has one word. -/
theorem decode_eq_iff {i : Instr} (h : i.wf = true) (op : Word) : decode op = i ↔ op = encode i := by
  refine ⟨fun hd => ?_, fun he => ?_⟩
  · rw [← hd, encode_decode]
  · rw [he, decode_encode h]

/-- R66: in the families of the register skips only the last nibble 0 is an operation. -/
theorem decode_encodeXYN_skip_of_ne_zero {d n : BitVec 4} (hd : d = 0x5 ∨ d = 0x9) (hn : n ≠ 0) (x y : RegIx) :
    decode (encodeXYN d x y n) = .unknown (encodeXYN d x y n) := by
  have hfield : n.toFin ≠ 0 := fun h => hn (BitVec.toFin_inj.mp h)
  rcases hd with rfl | rfl
  · simp [decode, hfield]
  · simp [decode, hfield]

namespace Machine

/-! ## Writes to pc and the stack -/

theorem frame_setPc (s : State) (w : Word) : Frame [.pc] s (s.setPc w) := by
  intro c hc
  cases c with
  | pc => simp at hc
  | regs | memory | keys => exact fun _ => rfl
  | screen => exact fun _ _ => rfl
  | index | stack | delay | sound | pending | paused | fault | image | rng | font | schedule | hostTail | outputs => rfl

theorem frame_setStack_setPc (s : State) (st : List Word) (w : Word) :
    Frame [.pc, .stack] s ((s.setStack st).setPc w) := by
  intro c hc
  have hpc := frame_setPc s w c fun h => hc (List.mem_append_left [Component.stack] h)
  cases c with
  | stack => simp at hc
  | _ => exact hpc

/-- The unmasked sum of Bnnn (decision D10) does not wrap. -/
theorem addrOperand_add_regWord_toNat (nnn : Addr12) (s : State) (x : RegIx) :
    (addrOperand nnn + s.regWord x).toNat = nnn.toNat + (s.reg x).toNat := by
  have hreg : (s.regWord x).toNat = (s.reg x).toNat := BitVec.toNat_setWidth_of_le (by decide)
  rw [BitVec.toNat_add, addrOperand_toNat, hreg]
  omega

/-! ## Skips (40_execution_cycle.md R81) -/

theorem frame_skipIf (c : Bool) (s : State) : Frame [.pc] s (skipIf c s) := by
  rw [skipIf_eq]
  exact frame_setPc s _

theorem skipIf_beq_pc (a b : Byte) (s : State) :
    (skipIf (a == b) s).pc = if a = b then s.pc + 2 else s.pc := by
  simp [skipIf_eq]

theorem skipIf_bne_pc (a b : Byte) (s : State) :
    (skipIf (a != b) s).pc = if a = b then s.pc else s.pc + 2 := by
  simp [skipIf_eq]

end Machine

end Sys2Proof

namespace Sys2Proof.Proofs
open Machine

/-- Settles O20: the word of NOP is 0x0000, and exec of NOP is the identity. -/
theorem nopChangesNothing : Obligations.NopChangesNothing :=
  ⟨decode_eq_iff (i := .nop) rfl, fun _ => rfl⟩

/-- Settles O21: the two cases of RET, each excluded where the other's condition holds. -/
theorem retPopsOrLatchesUnderflow : Obligations.RetPopsOrLatchesUnderflow := by
  refine ⟨fun s rest w hs => ?pops, fun s hf hs => ?underflows⟩
  case pops =>
    rcases execRet_cases s with ⟨hempty, -⟩ | ⟨rest', w', hs', e⟩
    · simp [hs] at hempty
    · obtain ⟨rfl, hw⟩ := List.append_inj' (hs.symm.trans hs') rfl
      cases hw
      exact ⟨_, e, rfl, rfl, frame_setStack_setPc s _ _⟩
  case underflows =>
    rcases execRet_cases s with ⟨-, e⟩ | ⟨rest, w, hs', -⟩
    · exact e.trans (raise_of_none _ _ _ hf)
    · simp [hs] at hs'

/-- Settles O22: the two cases of CALL, told apart by the length of the stack. -/
theorem callPushesOrLatchesOverflow : Obligations.CallPushesOrLatchesOverflow := by
  refine ⟨fun s nnn hroom => ?pushes, fun s nnn hf hfull => ?overflows⟩
  case pushes =>
    rcases execCall_cases nnn s with ⟨-, e⟩ | ⟨hfull, -⟩
    · exact ⟨_, e, rfl, addrOperand_toNat nnn, frame_setStack_setPc s _ _⟩
    · omega
  case overflows =>
    rcases execCall_cases nnn s with ⟨hroom, -⟩ | ⟨-, e⟩
    · omega
    · exact e.trans (raise_of_none _ _ _ hf)

/-- Settles O23: each jump is one write to pc, of a target that does not wrap. -/
theorem jumpsReplacePc : Obligations.JumpsReplacePc := by
  refine fun nnn => ⟨decode_encode (i := .jump nnn) rfl, decode_encode (i := .jumpV0 nnn) rfl,
    fun s => ⟨?jump, ?jumpV0⟩⟩
  case jump => exact ⟨_, rfl, addrOperand_toNat nnn, frame_setPc s _⟩
  case jumpV0 => exact ⟨_, rfl, addrOperand_add_regWord_toNat nnn s 0, frame_setPc s _⟩

/-- Settles O24: both are skipIf, on Vx and nn compared. -/
theorem immediateSkips : Obligations.ImmediateSkips := fun x nn =>
  ⟨decode_encode (i := .skipEqImm x nn) rfl, decode_encode (i := .skipNeImm x nn) rfl, fun s =>
    ⟨⟨_, rfl, skipIf_beq_pc _ _ s, frame_skipIf _ s⟩, ⟨_, rfl, skipIf_bne_pc _ _ s, frame_skipIf _ s⟩⟩⟩

/-- Settles O25: both are skipIf, on Vx and Vy compared; another last nibble is no operation. -/
theorem registerSkips : Obligations.RegisterSkips := fun x y =>
  ⟨decode_encode (i := .skipEqReg x y) rfl, decode_encode (i := .skipNeReg x y) rfl,
    fun _ hn => ⟨decode_encodeXYN_skip_of_ne_zero (.inl rfl) hn x y,
      decode_encodeXYN_skip_of_ne_zero (.inr rfl) hn x y⟩,
    fun s => ⟨⟨_, rfl, skipIf_beq_pc _ _ s, frame_skipIf _ s⟩, ⟨_, rfl, skipIf_bne_pc _ _ s, frame_skipIf _ s⟩⟩⟩

end Sys2Proof.Proofs
end

section
/-! SUPPORT. The register and ALU instructions (42_register_alu.md): an instruction that writes one register, one that
writes a result and then VF (40_execution_cycle.md R85), and the flags and results as numbers. -/

namespace Sys2Proof.Machine

variable {s : State} {i : Instr} {x : RegIx} {b : Byte}

/-! ## Register writes and their frames -/

theorem reg_setReg_self (s : State) (x : RegIx) (b : Byte) : (s.setReg x b).reg x = b :=
  (s.reg_setReg x x b).trans (if_pos rfl)

theorem reg_setReg_of_ne {k : RegIx} (s : State) (b : Byte) (hk : k ≠ x) : (s.setReg x b).reg k = s.reg k :=
  (s.reg_setReg x k b).trans (if_neg hk)

theorem frame_setRegs (s : State) (v : Regs) : Frame [.regs] s (s.setRegs v) := by
  intro c hc
  cases c with
  | regs => simp at hc
  | memory | keys => exact fun _ => rfl
  | screen => exact fun _ _ => rfl
  | index | pc | stack | delay | sound | pending | paused | fault | image | rng | font | schedule | hostTail | outputs =>
    rfl

theorem frame_setReg (s : State) (x : RegIx) (b : Byte) : Frame [.regs] s (s.setReg x b) := frame_setRegs s _

theorem frame_setRegFlag (s : State) (x : RegIx) (b : Byte) (flag : Bool) :
    Frame [.regs] s (s.setRegFlag x b flag) := frame_setRegs s _

theorem frame_setRngPos_setReg (s : State) (n : Nat) (x : RegIx) (b : Byte) :
    Frame [.regs, .rng] s ((s.setRngPos n).setReg x b) := by
  intro c hc
  have hregs := frame_setReg s x b c fun h => hc (List.mem_append_left [Component.rng] h)
  cases c with
  | rng => simp at hc
  | _ => exact hregs

/-! ## What the write shapes answer -/

theorem exec_of_setReg (h : exec i s = .next (s.setReg x b)) :
    ∃ t, exec i s = .next t ∧ (∀ k, t.reg k = if k = x then b else s.reg k) ∧ Frame [.regs] s t :=
  ⟨_, h, fun k => s.reg_setReg x k b, frame_setReg s x b⟩

/-- The same for a result given as a number. -/
theorem exec_of_setReg_toNat {r : Nat} (h : exec i s = .next (s.setReg x b)) (hr : b.toNat = r) :
    ∃ t, exec i s = .next t ∧ (∀ k, (t.reg k).toNat = if k = x then r else (s.reg k).toNat) ∧ Frame [.regs] s t :=
  ⟨_, h, fun k => by rw [s.reg_setReg, apply_ite BitVec.toNat, hr], frame_setReg s x b⟩

/-- The same for a result given bit by bit. -/
theorem exec_of_setReg_getLsbD {p : Nat → Bool} (h : exec i s = .next (s.setReg x b)) (hb : ∀ j, b.getLsbD j = p j) :
    ∃ t, exec i s = .next t ∧ (∀ j, (t.reg x).getLsbD j = p j) ∧ (∀ k, k ≠ x → t.reg k = s.reg k) ∧
      Frame [.regs] s t :=
  ⟨_, h, fun j => by rw [reg_setReg_self, hb], fun _ hk => reg_setReg_of_ne s b hk, frame_setReg s x b⟩

/-- R85: VF, written last, holds the flag, also when it is the destination. -/
theorem exec_of_setRegFlag {flag : Bool} {f r : Nat} (h : exec i s = .next (s.setRegFlag x b flag))
    (hf : (flagByte flag).toNat = f) (hr : b.toNat = r) :
    ∃ t, exec i s = .next t ∧
      (∀ k, (t.reg k).toNat = if k = 15 then f else if k = x then r else (s.reg k).toNat) ∧ Frame [.regs] s t :=
  ⟨_, h, fun k => by rw [s.reg_setRegFlag, apply_ite BitVec.toNat, apply_ite BitVec.toNat, hf, hr],
    frame_setRegFlag s x b flag⟩

/-- R111: the draw, then one register write. -/
theorem exec_setVxRnd (x : RegIx) (nn : Byte) (s : State) :
    exec (.setVxRnd x nn) s = .next ((s.setRngPos (s.rngPos + 1)).setReg x (Config.rng s.rngPos &&& nn)) := rfl

/-! ## Flags and results as numbers -/

theorem flagByte_decide_toNat (p : Prop) [Decidable p] : (flagByte (decide p)).toNat = if p then 1 else 0 := by
  simp only [flagByte_toNat, decide_eq_true_eq]

theorem flagByte_getLsbD_toNat (b : Byte) (j : Nat) : (flagByte (b.getLsbD j)).toNat = b.toNat / 2 ^ j % 2 := by
  rw [BitVec.getLsbD, Nat.testBit_eq_decide_div_mod_eq, flagByte_decide_toNat]
  split <;> omega

theorem flagByte_shiftOutRight_toNat (b : Byte) : (flagByte (shiftOutRight b)).toNat = b.toNat % 2 := by
  rw [shiftOutRight, flagByte_getLsbD_toNat, Nat.pow_zero, Nat.div_one]

/-- Bit 7 is the top bit of a byte. -/
theorem flagByte_shiftOutLeft_toNat (b : Byte) : (flagByte (shiftOutLeft b)).toNat = b.toNat / 128 := by
  rw [shiftOutLeft, flagByte_getLsbD_toNat]
  omega

theorem byte_sub_toNat (a b : Byte) : (a - b).toNat = (a.toNat + 256 - b.toNat) % 256 := by
  rw [BitVec.toNat_sub]
  omega

theorem ushiftRight_one_toNat (b : Byte) : (b >>> 1).toNat = b.toNat / 2 := by
  rw [BitVec.toNat_ushiftRight, Nat.shiftRight_one]

theorem shiftLeft_one_toNat (b : Byte) : (b <<< 1).toNat = b.toNat * 2 % 256 := by
  rw [BitVec.toNat_shiftLeft, Nat.shiftLeft_eq]

end Sys2Proof.Machine

namespace Sys2Proof.Proofs
open Machine

/-- Settles O27: 6xnn is one register write. -/
theorem loadImmediateSetsVx : Obligations.LoadImmediateSetsVx := fun x nn =>
  ⟨decode_encode (i := .setVxImm x nn) rfl, fun _ => exec_of_setReg rfl⟩

/-- Settles O28: each of the five is one register write, and VF is no exception. -/
theorem flaglessWritersChangeOnlyVx : Obligations.FlaglessWritersChangeOnlyVx := by
  refine fun s x y nn => ⟨?add, ?copy, ?or, ?and, ?xor⟩
  case add => exact exec_of_setReg_toNat rfl (BitVec.toNat_add ..)
  case copy => exact exec_of_setReg rfl
  case or => exact exec_of_setReg_getLsbD rfl fun _ => BitVec.getLsbD_or
  case and => exact exec_of_setReg_getLsbD rfl fun _ => BitVec.getLsbD_and
  case xor => exact exec_of_setReg_getLsbD rfl fun _ => BitVec.getLsbD_xor

/-- Settles O29: the sum, then the carry as VF. -/
theorem addSetsCarry : Obligations.AddSetsCarry := fun _ _ _ =>
  exec_of_setRegFlag rfl (flagByte_decide_toNat _) (BitVec.toNat_add ..)

/-- Settles O30: the difference in either order, then the missing borrow as VF. -/
theorem subtractsSetNotBorrow : Obligations.SubtractsSetNotBorrow := fun _ _ _ =>
  ⟨exec_of_setRegFlag rfl (flagByte_decide_toNat _) (byte_sub_toNat _ _),
    exec_of_setRegFlag rfl (flagByte_decide_toNat _) (byte_sub_toNat _ _)⟩

/-- Settles O31: Vy shifted by one, then the bit shifted out, of the old Vy, as VF. -/
theorem shiftsSetTheBitShiftedOut : Obligations.ShiftsSetTheBitShiftedOut := fun _ _ _ =>
  ⟨exec_of_setRegFlag rfl (flagByte_shiftOutRight_toNat _) (ushiftRight_one_toNat _),
    exec_of_setRegFlag rfl (flagByte_shiftOutLeft_toNat _) (shiftLeft_one_toNat _)⟩

/-- Settles O32: one draw, then one register write of the drawn byte under the mask. -/
theorem rndDrawsOneMaskedByte : Obligations.RndDrawsOneMaskedByte := by
  refine fun s x nn => ⟨_, exec_setVxRnd x nn s, fun j => ?masked, fun k hk => ?others, rfl,
    frame_setRngPos_setReg s _ x _⟩
  case masked => rw [reg_setReg_self, BitVec.getLsbD_and]
  case others => rw [reg_setReg_of_ne _ _ hk, State.reg_setRngPos]

end Sys2Proof.Proofs
end

section
/-! SUPPORT. The index register and memory instructions (43_index_memory.md): what Fx33, Fx55 and Fx65 answer when their
range lies in memory, the bytes and registers they write, and the values written to I as numbers. -/

namespace Sys2Proof.Machine

variable {s : State} {x : RegIx}

/-! ## The accesses inside memory (20_memory.md R48) -/

theorem exec_bcd_of_inside (hin : s.I.toNat + 2 < 4096) :
    exec (.bcd x) s = .next (s.writeBytes s.I.toNat (bcdDigits (s.reg x))) := by
  rcases execBcd_cases x s with ⟨-, e⟩ | ⟨hout, -⟩
  · exact e
  · omega

theorem exec_storeRegs_of_inside (hin : s.I.toNat + x.val < 4096) :
    exec (.storeRegs x) s = .next (s.writeBytes s.I.toNat (s.regRange x)) := by
  rcases execStoreRegs_cases x s with ⟨-, e⟩ | ⟨hout, -⟩
  · exact e
  · omega

theorem exec_loadRegs_of_inside (hin : s.I.toNat + x.val < 4096) :
    exec (.loadRegs x) s = .next (s.setRegs (loadRegsFrom 0 (s.bytesAt s.I.toNat (x.val + 1)) s.V)) := by
  rcases execLoadRegs_cases x s with ⟨-, e⟩ | ⟨hout, -⟩
  · exact e
  · omega

/-! ## What they write -/

/-- R123: the digits as numbers; none of them is cut to a byte. -/
theorem map_toNat_bcdDigits (v : Byte) :
    (bcdDigits v).map BitVec.toNat = [v.toNat / 100, v.toNat / 10 % 10, v.toNat % 10] := by
  have hv : v.toNat < 256 := v.isLt
  have hbyte : ∀ n, n < 256 → (BitVec.ofNat 8 n).toNat = n := fun n hn =>
    (BitVec.toNat_ofNat n 8).trans (Nat.mod_eq_of_lt hn)
  rw [bcdDigits, List.map_cons, List.map_cons, List.map_singleton, hbyte _ (by omega), hbyte _ (by omega),
    hbyte _ (by omega)]

/-- A digit read back from where the digits of v were written. -/
theorem readByte_writeBytes_bcdDigits_toNat (s : State) (base : Nat) (v : Byte) {k : Nat} (hk : k < 3) :
    ((s.writeBytes base (bcdDigits v)).readByte (base + k)).toNat =
      [v.toNat / 100, v.toNat / 10 % 10, v.toNat % 10][k] := by
  calc ((s.writeBytes base (bcdDigits v)).readByte (base + k)).toNat
      = (bcdDigits v)[k].toNat := congrArg BitVec.toNat (readByte_writeBytes_add hk)
    _ = ((bcdDigits v).map BitVec.toNat)[k] := (List.getElem_map _).symm
    _ = [v.toNat / 100, v.toNat / 10 % 10, v.toNat % 10][k] := List.getElem_of_eq (map_toNat_bcdDigits v) _

/-- R124: a register read back from where V0..Vx were written. -/
theorem readByte_writeBytes_regRange (s : State) (base : Nat) {k : RegIx} (hk : k ≤ x) :
    (s.writeBytes base (s.regRange x)).readByte (base + k.val) = s.reg k := by
  have hlen : k.val < (s.regRange x).length := by
    rw [State.regRange_length]
    exact Nat.lt_succ_of_le hk
  rw [readByte_writeBytes_add hlen, s.regRange_getElem x k.val hlen k.isLt]
  rfl

/-- R125: V0..Vx from memory, the registers after Vx as they were. -/
theorem reg_setRegs_loadRegsFrom_bytesAt (s : State) (base : Nat) (x k : RegIx) :
    (s.setRegs (loadRegsFrom 0 (s.bytesAt base (x.val + 1)) s.V)).reg k =
      if k ≤ x then s.readByte (base + k.val) else s.reg k := by
  rw [State.reg_setRegs, loadRegsFrom_getElem]
  have hinside : 0 ≤ k.val ∧ k.val - 0 < (s.bytesAt base (x.val + 1)).length ↔ k ≤ x := by
    rw [State.bytesAt_length, Fin.le_def]
    omega
  by_cases hk : k ≤ x
  · rw [dif_pos (hinside.mpr hk), if_pos hk, State.bytesAt_getElem, Nat.sub_zero]
  · rw [dif_neg (mt hinside.mp hk), if_neg hk, State.reg]

/-! ## Writes to I -/

theorem frame_setIndex (s : State) (w : Word) : Frame [.index] s (s.setIndex w) := by
  intro c hc
  cases c with
  | index => simp at hc
  | regs | memory | keys => exact fun _ => rfl
  | screen => exact fun _ _ => rfl
  | pc | stack | delay | sound | pending | paused | fault | image | rng | font | schedule | hostTail | outputs => rfl

theorem regWord_toNat (s : State) (x : RegIx) : (s.regWord x).toNat = (s.reg x).toNat :=
  BitVec.toNat_setWidth_of_le (by decide)

/-- Decision D11: five bytes a glyph, and the product of a byte and 5 does not wrap. -/
theorem regWord_mul_glyphBytes_toNat (s : State) (x : RegIx) :
    (s.regWord x * BitVec.ofNat 16 Config.glyphBytes).toNat = (s.reg x).toNat * 5 := by
  have hreg : (s.reg x).toNat < 256 := (s.reg x).isLt
  rw [BitVec.toNat_mul, regWord_toNat]
  exact Nat.mod_eq_of_lt (show (s.reg x).toNat * 5 < 65536 by omega)

end Sys2Proof.Machine

namespace Sys2Proof.Proofs
open Machine

/-- Settles O36: the digits are one range of three bytes. -/
theorem bcdStoresThreeDigits : Obligations.BcdStoresThreeDigits := by
  refine fun s x hin => ⟨_, exec_bcd_of_inside hin, ?hundreds, ?tens, ?units, fun a ha => ?others,
    frame_writeBytes s _ _⟩
  case hundreds => exact readByte_writeBytes_bcdDigits_toNat s _ _ (k := 0) (by decide)
  case tens => exact readByte_writeBytes_bcdDigits_toNat s _ _ (by decide)
  case units => exact readByte_writeBytes_bcdDigits_toNat s _ _ (by decide)
  case others => exact readByte_writeBytes_of_outside (by rw [bcdDigits_length]; omega)

/-- Settles O37: the bytes of V0..Vx are one range of x + 1 bytes. -/
theorem storeRegsCopiesTheRange : Obligations.StoreRegsCopiesTheRange := by
  refine fun s x hin => ⟨_, exec_storeRegs_of_inside hin, fun k hk => readByte_writeBytes_regRange s _ hk,
    fun a ha => ?others, frame_writeBytes s _ _⟩
  case others => exact readByte_writeBytes_of_outside (by rw [State.regRange_length]; omega)

/-- Settles O38: the load is one write of the register file. -/
theorem loadRegsCopiesTheRange : Obligations.LoadRegsCopiesTheRange := fun s x hin =>
  ⟨_, exec_loadRegs_of_inside hin, reg_setRegs_loadRegsFrom_bytesAt s _ x, frame_setRegs s _⟩

/-- Settles O40: the store keeps I, so the load reads the bytes stored, and the new register file is no part of
memory. -/
theorem storedRegistersAreLoadedBack : Obligations.StoredRegistersAreLoadedBack := by
  intro s x v hin
  obtain ⟨t, hstore, hbytes, -, hframe⟩ := storeRegsCopiesTheRange s x hin
  have hI : (t.setRegs v).I = s.I := hframe .index (by decide)
  obtain ⟨u, hload, hregs, -⟩ := loadRegsCopiesTheRange (t.setRegs v) x (by rw [hI]; exact hin)
  refine ⟨t, u, hstore, hload, fun k hk => ?loaded, fun k hk => ?kept⟩
  case loaded => rw [hregs, if_pos hk, hI, State.readByte_setRegs, hbytes k hk]
  case kept => rw [hregs, if_neg (not_le.mpr hk), State.reg_setRegs]

/-- Settles O33: Annn is one write to I, of an address. -/
theorem setIndexLoadsTheAddress : Obligations.SetIndexLoadsTheAddress := fun nnn =>
  ⟨decode_encode (i := .setIndex nnn) rfl, fun s =>
    ⟨_, rfl, addrOperand_toNat nnn, addrOperand_toNat_le nnn, frame_setIndex s _⟩⟩

/-- Settles O34: both are one write to I, of a sum modulo 2^16 and of a product that does not wrap. -/
theorem indexArithmetic : Obligations.IndexArithmetic := by
  refine fun s x => ⟨⟨_, rfl, ?sum, frame_setIndex s _⟩, ⟨_, rfl, regWord_mul_glyphBytes_toNat s x, frame_setIndex s _⟩⟩
  case sum => rw [State.setIndex_I, BitVec.toNat_add, regWord_toNat]

end Sys2Proof.Proofs
end

section
/-! SUPPORT. The display instructions (44_display.md): the sprite in memory as the rows the sprite fold draws, what a
DRW whose sprite lies in memory answers, and the frames of both. -/

namespace Sys2Proof.Machine

variable {s t : State} {x y : RegIx}

/-! ## Writes to the screen -/

theorem frame_setScreen (s : State) (g : Screen) : Frame [.screen] s (s.setScreen g) := by
  intro c hc
  cases c with
  | screen => simp at hc
  | regs | memory | keys => exact fun _ => rfl
  | index | pc | stack | delay | sound | pending | paused | fault | image | rng | font | schedule | hostTail | outputs =>
    rfl

theorem frame_setScreen_setReg (s : State) (g : Screen) (k : RegIx) (b : Byte) :
    Frame [.screen, .regs] s ((s.setScreen g).setReg k b) := by
  intro c hc
  have hscreen := frame_setScreen s g c fun h => hc (List.mem_append_left [Component.regs] h)
  cases c with
  | regs => simp at hc
  | _ => exact hscreen

/-! ## The sprite in memory (R131) -/

/-- What a sprite covers is read from I and memory alone. -/
theorem spriteCovers_congr (hI : t.I = s.I) (hmem : ∀ a, t.readByte a = s.readByte a) (cx cy n : Nat) (c : Fin 64)
    (r : Fin 32) : t.spriteCovers cx cy n c r ↔ s.spriteCovers cx cy n c r := by
  simp only [State.spriteCovers, hI, hmem]

/-- The n bytes at I, as the rows of the sprite fold, cover what the sprite covers. -/
theorem rowsCover_bytesAt (s : State) (cx cy n : Nat) (c : Fin 64) (r : Fin 32) :
    rowsCover cx cy (s.bytesAt s.I.toNat n) c.val r.val ↔ s.spriteCovers cx cy n c r := by
  constructor
  · rintro ⟨row, hrow, hr, col, hcol, hbit, hc⟩
    rw [State.bytesAt_getElem] at hbit
    rw [State.bytesAt_length] at hrow
    exact ⟨row, col, hrow, hcol, hbit, hc, hr⟩
  · rintro ⟨row, col, hrow, hcol, hbit, hc, hr⟩
    have hlen : row < (s.bytesAt s.I.toNat n).length := by rwa [State.bytesAt_length]
    exact ⟨row, hlen, hr, col, hcol, by rwa [State.bytesAt_getElem], hc⟩

/-- R131 for the sprite at I: the covered pixels toggle, the others stay, and the collision bit says whether a covered
pixel was set. A sprite has fewer rows than the screen, so that no two of them wrap to the same one. -/
theorem drawSprite_bytesAt (s : State) (cx cy : Byte) (n : Fin 16) :
    (∀ c r, s.spriteCovers cx.toNat cy.toNat n.val c r →
      Screen.at (s.drawSprite cx cy (s.bytesAt s.I.toNat n.val)).1 c r = !(s.pixel c r)) ∧
    (∀ c r, ¬ s.spriteCovers cx.toNat cy.toNat n.val c r →
      Screen.at (s.drawSprite cx cy (s.bytesAt s.I.toNat n.val)).1 c r = s.pixel c r) ∧
    ((s.drawSprite cx cy (s.bytesAt s.I.toNat n.val)).2 = true ↔
      ∃ c r, s.spriteCovers cx.toNat cy.toNat n.val c r ∧ s.pixel c r = true) := by
  have hlen : (s.bytesAt s.I.toNat n.val).length ≤ 32 := by
    rw [State.bytesAt_length]
    omega
  obtain ⟨hcovered, hother, hhit⟩ := drawRows_spec cx.toNat _ cy.toNat (s.screen, false) hlen
  simp only [rowsCover_bytesAt, Bool.false_eq_true, false_or] at hcovered hother hhit
  exact ⟨hcovered, hother, hhit⟩

/-! ## The draw inside memory (20_memory.md R48) -/

theorem exec_draw_of_inside {n : Fin 16} (hin : n.val = 0 ∨ s.I.toNat + n.val ≤ 4096) :
    exec (.draw x y n) s =
      .next ((s.setScreen (s.drawSprite (s.reg x) (s.reg y) (s.bytesAt s.I.toNat n.val)).1).setReg 15
        (flagByte (s.drawSprite (s.reg x) (s.reg y) (s.bytesAt s.I.toNat n.val)).2)) := by
  rcases execDraw_cases x y n s with ⟨-, e⟩ | ⟨hpos, hout, -⟩
  · exact e
  · omega

end Sys2Proof.Machine

namespace Sys2Proof.Proofs
open Machine

/-- Settles O43: the sprite fold over the bytes at I, then VF, written last, from its collision bit. -/
theorem drawTogglesCoveredPixels : Obligations.DrawTogglesCoveredPixels := by
  intro s x y n hin
  obtain ⟨hcovered, hother, hhit⟩ := drawSprite_bytesAt s (s.reg x) (s.reg y) n
  refine ⟨_, exec_draw_of_inside hin, hcovered, hother, fun hset => ?collision, fun hclear => ?noCollision,
    fun k hk => reg_setReg_of_ne _ _ hk, frame_setScreen_setReg s _ _ _⟩
  case collision => rw [reg_setReg_self, hhit.mpr hset, flagByte, if_pos rfl]
  case noCollision => rw [reg_setReg_self, flagByte, if_neg (mt hhit.mp hclear)]

/-- Settles O44: the first draw keeps I, memory and both coordinates, so the second covers the same pixels and inverts
each of them back. -/
theorem drawingTwiceRestoresTheScreen : Obligations.DrawingTwiceRestoresTheScreen := by
  intro s x y n hx hy hin
  obtain ⟨t, hdraw, hcovered, hother, -, -, hregs, hframe⟩ := drawTogglesCoveredPixels s x y n hin
  have hI : t.I = s.I := hframe .index (by decide)
  obtain ⟨u, hagain, hcovered', hother', -⟩ := drawTogglesCoveredPixels t x y n (by rwa [hI])
  simp only [hregs x hx, hregs y hy, spriteCovers_congr hI (hframe .memory (by decide))] at hcovered' hother'
  refine ⟨t, u, hdraw, hagain, fun c r => ?_⟩
  by_cases hc : s.spriteCovers (s.reg x).toNat (s.reg y).toNat n.val c r
  · rw [hcovered' c r hc, hcovered c r hc, Bool.not_not]
  · rw [hother' c r hc, hother c r hc]

/-- Settles O42: 00E0 is one write of the blank screen. -/
theorem clearScreenTurnsEveryPixelOff : Obligations.ClearScreenTurnsEveryPixelOff :=
  ⟨decode_encode (i := .clearScreen) rfl, fun s => ⟨_, rfl, blankScreen_at, frame_setScreen s _⟩⟩

end Sys2Proof.Proofs
end

section
/-! SUPPORT. The key and timer instructions (45_keys_timers.md): the writes to DT, ST, the keys and the pending slot and
their frames, what a key skip answers, and the release that ends a wait (60_exceptions.md R165). -/

namespace Sys2Proof.Machine

variable {s : State} {x : RegIx} {k : KeyIx}

/-! ## Writes to the timers, the keys and the pending slot -/

theorem frame_setDelay (s : State) (b : Byte) : Frame [.delay] s (s.setDelay b) := by
  intro c hc
  cases c with
  | delay => simp at hc
  | _ => simp [Component.same]

theorem frame_setSound (s : State) (b : Byte) : Frame [.sound] s (s.setSound b) := by
  intro c hc
  cases c with
  | sound => simp at hc
  | _ => simp [Component.same]

theorem frame_setPending (s : State) (p : Option RegIx) : Frame [.pending] s (s.setPending p) := by
  intro c hc
  cases c with
  | pending => simp at hc
  | _ => simp [Component.same]

theorem frame_setKey (s : State) (k : KeyIx) (b : Bool) : Frame [.keys] s (s.setKey k b) := by
  intro c hc
  cases c with
  | keys => simp at hc
  | _ => simp [Component.same]

theorem frame_setKey_setReg (s : State) (k : KeyIx) (down : Bool) (x : RegIx) (b : Byte) :
    Frame [.keys, .regs] s ((s.setKey k down).setReg x b) := by
  intro c hc
  have hkeys := frame_setKey s k down c fun h => hc (List.mem_append_left [Component.regs] h)
  cases c with
  | regs => simp at hc
  | _ => exact hkeys

/-! ## Key skips (R140, R141) -/

theorem skipOnKey_of_key (i : Instr) (wanted : Bool) (hk : (s.reg x).toNat = k.val) :
    skipOnKey i x wanted s = .next (skipIf (s.key k == wanted) s) := by
  rcases skipOnKey_cases i x wanted s with ⟨k', hk', e⟩ | ⟨hout, -⟩
  · cases Fin.ext (hk'.symm.trans hk)
    exact e
  · omega

theorem skipOnKey_of_no_key (i : Instr) (wanted : Bool) (hf : s.fault = none) (hout : 16 ≤ (s.reg x).toNat) :
    skipOnKey i x wanted s =
      .next { s with fault := some ⟨.keyOutOfRange, s.pc - 2, some (encode i), (s.reg x).toNat⟩ } := by
  rcases skipOnKey_cases i x wanted s with ⟨k, hk, -⟩ | ⟨-, e⟩
  · omega
  · exact e.trans (raise_of_none i _ _ hf)

/-! ## The release that ends a wait (R165) -/

theorem keyByte_toNat (k : KeyIx) : (keyByte k).toNat = k.val := by
  simp only [keyByte, BitVec.toNat_ofNat]
  omega

theorem releaseKey_of_waiting (hp : s.pending = some x) :
    releaseKey k s = ((s.setKey k false).setReg x (keyByte k)).setPending none := by
  simp only [releaseKey, hp]

end Sys2Proof.Machine

namespace Sys2Proof.Proofs
open Machine

/-- Settles O45: both are skipOnKey, which skips on the state of the key Vx names and raises where it names none. -/
theorem keySkips : Obligations.KeySkips := by
  refine ⟨fun s x k hk => ⟨?whenDown, ?whenUp⟩, fun _ _ hf hout =>
    ⟨skipOnKey_of_no_key _ _ hf hout, skipOnKey_of_no_key _ _ hf hout⟩⟩
  case whenDown => exact ⟨_, skipOnKey_of_key _ true hk, by simp [skipIf_eq], frame_skipIf _ s⟩
  case whenUp =>
    refine ⟨_, skipOnKey_of_key _ false hk, ?_, frame_skipIf _ s⟩
    cases s.key k <;> simp [skipIf_eq]

/-- Settles O47: the wait holds off advance and outlives a press; the release writes the key, Vx and the pending slot,
whether the key was down or not. -/
theorem waitKeyIsResolvedByRelease : Obligations.WaitKeyIsResolvedByRelease := by
  intro s x k _
  refine ⟨s.setPending (some x), rfl, rfl, frame_setPending s _, ?suspended, ⟨_, rfl, rfl⟩,
    ⟨((s.setKey k false).setReg x (keyByte k)).setPending none, ?released, rfl, ?keyUp, fun j => ?register,
      fun j hj => ?otherKeys, frame_setKey_setReg s k false x _⟩⟩
  case suspended => exact advance_of_faulted_or_waiting (.inr (by simp))
  case released => exact congrArg _ (releaseKey_of_waiting rfl)
  case keyUp => exact (s.key_setKey k k false).trans (if_pos rfl)
  case register => simp [apply_ite BitVec.toNat, keyByte_toNat]
  case otherKeys => exact (s.key_setKey k j false).trans (if_neg hj)

/-- Settles O46: one write each, to Vx, DT and ST. -/
theorem timerInstructions : Obligations.TimerInstructions := fun s _ =>
  ⟨exec_of_setReg rfl, ⟨_, rfl, rfl, frame_setDelay s _⟩, ⟨_, rfl, rfl, frame_setSound s _⟩⟩

end Sys2Proof.Proofs
end

section
/-! SUPPORT. The timer, key, framebuffer and debug ports (60_exceptions.md R160 to R174), each command said once: the
tick as one record, the keys under a press and a release, the grid of get_screen, and the advance behind step_back. -/

namespace Sys2Proof.Machine

variable {s : State}

/-! ## The timers (10_state.md R27) -/

theorem countDown_toNat (b : Byte) : (countDown b).toNat = b.toNat - 1 := by
  unfold countDown
  split
  next h => simp [h]
  next h => bv_omega

theorem ne_zero_and_countDown_eq_zero_iff (b : Byte) : (b ≠ 0 ∧ countDown b = 0) ↔ b = 1 := by
  have h := countDown_toNat b
  bv_omega

/-- A tick writes the two timers, and appends StopSound on the edge of ST. -/
theorem tickTimers_eq (s : State) :
    tickTimers s = { s with DT := countDown s.DT, ST := countDown s.ST,
                            outputs := s.outputs ++ if s.ST = 1 then [.stopSound] else [] } := by
  simp only [tickTimers, ne_zero_and_countDown_eq_zero_iff]
  by_cases h : s.ST = 1
  · simp only [if_pos h]
    rfl
  · simp only [if_neg h, List.append_nil]
    rfl

theorem frame_tickTimers (s : State) : Frame [.delay, .sound, .outputs] s (tickTimers s) := by
  rw [tickTimers_eq]
  intro c hc
  cases c with
  | delay | sound | outputs => simp at hc
  | regs | memory | keys => exact fun _ => rfl
  | screen => exact fun _ _ => rfl
  | index | pc | stack | pending | paused | fault | image | rng | font | schedule | hostTail => rfl

/-! ## The keys -/

/-- Putting a key where it is already put changes nothing. -/
@[simp] theorem State.setKey_setKey (s : State) (k : KeyIx) (a b : Bool) :
    (s.setKey k a).setKey k b = s.setKey k b := by
  simp [State.setKey]

theorem releaseKey_of_not_waiting (hp : s.pending = none) (k : KeyIx) : releaseKey k s = s.setKey k false := by
  simp only [releaseKey, hp]

/-! ## What the host is handed -/

theorem frame_emit (s : State) (o : Output) : Frame [.outputs] s (s.emit o) := by
  intro c hc
  cases c with
  | outputs => simp at hc
  | _ => simp [Component.same]

theorem soundActive_eq (s : State) : s.soundActive = decide (s.ST.toNat ≠ 0) := by
  rw [State.soundActive, bne, beq_eq_decide, ← decide_not]
  exact decide_eq_decide.mpr (not_congr BitVec.toNat_inj.symm)

theorem State.gridList_eq_flatten (s : State) : s.gridList = s.screen.flatten.toList := by
  rw [State.gridList]
  obtain ⟨⟨rows⟩, hrows⟩ := s.screen
  simp [List.flatMap_def, Function.comp_def, Vector.toList_toArray]

@[simp] theorem State.gridList_length (s : State) : s.gridList.length = 2048 := by
  simp [State.gridList_eq_flatten, Config.screenH, Config.screenW]

/-- Row-major order: each row holds 64 pixels. -/
theorem State.gridList_getElem? (s : State) (c : Fin 64) (r : Fin 32) :
    s.gridList[r.val * 64 + c.val]? = some (s.pixel c r) := by
  have hi : r.val * 64 + c.val < 32 * 64 := by omega
  have hrow : (r.val * 64 + c.val) / 64 = r.val := by omega
  have hcol : (r.val * 64 + c.val) % 64 = c.val := by omega
  rw [State.gridList_eq_flatten, Vector.getElem?_toList, Vector.getElem?_eq_getElem hi, Vector.getElem_flatten hi]
  simp only [hrow, hcol]
  rfl

theorem fetchAt_of_inside {a : Word} (h : a.toNat + 1 < 4096) :
    fetchAt a s = .operation (decode (s.readByte a.toNat ++ s.readByte (a.toNat + 1))) := if_pos h

theorem fetchAt_of_past {a : Word} (h : 4096 ≤ a.toNat + 1) : fetchAt a s = .fetchAtOutOfRange a :=
  if_neg (Nat.not_lt.mpr h)

/-! ## step_back (R171) -/

theorem stepBack_of_not_faulted (hf : s.fault = none) : stepBack s = advance (s.setPc (s.pc - 4)) := by
  simp [stepBack, hf]

/-- A wait holds off the advance, not the rewind. -/
theorem stepBack_of_waiting (hf : s.fault = none) (hp : s.pending ≠ none) :
    stepBack s = .next (s.setPc (s.pc - 4)) := by
  rw [stepBack_of_not_faulted hf]
  exact advance_of_faulted_or_waiting (.inr hp)

end Sys2Proof.Machine

namespace Sys2Proof.Proofs
open Machine

/-- Settles O48: one write of keys[k], which a second press repeats. -/
theorem pressSetsOneKey : Obligations.PressSetsOneKey := fun s k =>
  ⟨s.setKey k true, rfl, fun j => s.key_setKey k j true, frame_setKey s k true,
    congrArg Host.Outcome.next (s.setKey_setKey k true true)⟩

/-- Settles O49: with nothing pending the release is one write of keys[k]. -/
theorem releaseWithoutWaitClearsOneKey : Obligations.ReleaseWithoutWaitClearsOneKey := fun s k hp =>
  ⟨s.setKey k false, congrArg _ (releaseKey_of_not_waiting hp k), fun j => s.key_setKey k j false,
    frame_setKey s k false⟩

/-- Settles O50: the tick is one record in every state, and each timer counts down with floor 0. -/
theorem tickCountsDownAndStopsSound : Obligations.TickCountsDownAndStopsSound := by
  intro s
  refine ⟨tickTimers s, rfl, ?_, ?_, ?_, frame_tickTimers s⟩
  · rw [tickTimers_eq, countDown_toNat]
  · rw [tickTimers_eq, countDown_toNat]
  · rw [tickTimers_eq]

/-- Settles O51: each port emits the component it reads; the grid is the rows one after another. -/
theorem readPortsReportTheState : Obligations.ReadPortsReportTheState := fun s =>
  ⟨fun _ => rfl, rfl, rfl, rfl, rfl, rfl, by rw [perform, soundActive_eq],
    ⟨s.gridList, rfl, s.gridList_length, s.gridList_getElem?⟩, frame_emit s⟩

/-- Settles O52: fetch_at emits one of its two results. -/
theorem fetchAtPeeks : Obligations.FetchAtPeeks := by
  intro s a
  refine ⟨fun hin => ?inside, fun hout => ?past⟩
  case inside => rw [perform, fetchAt_of_inside hin]
  case past => rw [perform, fetchAt_of_past hout]

/-- Settles O53: with no fault latched step_back is an advance from pc - 4, whose cases are those of an advance. -/
theorem stepBackRewindsAndAdvances : Obligations.StepBackRewindsAndAdvances := by
  intro s hf
  refine ⟨fun r hp => ?waiting, fun hp hlo hhi => ?executes, fun hp hlo => ?wraps⟩
  case waiting => exact stepBack_of_waiting hf (by simp [hp])
  case executes =>
    have haddr : (s.pc - 4).toNat = s.pc.toNat - 4 := by bv_omega
    have hnext : s.pc.toNat - 4 + 1 = s.pc.toNat - 3 := by omega
    have hpc : s.pc - 4 + 2 = s.pc - 2 := by bv_omega
    have h := advance_of_fetch_succeeds (s := s.setPc (s.pc - 4)) hf hp
      (by rw [State.setPc_pc, haddr, hnext]; exact hhi)
    rw [State.setPc_pc, haddr, hnext, hpc] at h
    exact (stepBack_of_not_faulted hf).trans h
  case wraps =>
    have haddr : (s.pc - 4).toNat = s.pc.toNat + 65532 := by bv_omega
    have h := advance_of_fetch_fails (s := s.setPc (s.pc - 4)) hf hp (by rw [State.setPc_pc, haddr]; omega)
    rw [State.setPc_pc, haddr] at h
    exact (stepBack_of_not_faulted hf).trans h

end Sys2Proof.Proofs
end

section
/-! SUPPORT. The wait-for-key FSM (60_exceptions.md R159) and progress under a host schedule (R170): no command but a
release or a reset ends a wait, none but these and an execution writes the latch or the pending slot, and what every
entry of a schedule carries over holds along the whole run. -/

namespace Sys2Proof.Machine

variable {s t : State} {c : Command}

/-! ## The FSM's state -/

theorem State.fsm_eq_running_iff : s.fsm = .running ↔ s.fault = none ∧ s.pending = none := by
  unfold State.fsm
  split <;> simp [*]

theorem State.fsm_eq_awaitingKey_iff {r : RegIx} :
    s.fsm = .awaitingKey r ↔ s.fault = none ∧ s.pending = some r := by
  unfold State.fsm
  split <;> simp [*]

theorem State.fsm_eq_faulted_iff : s.fsm = .faulted ↔ s.fault ≠ none := by
  unfold State.fsm
  split <;> simp [*]

theorem State.fsm_congr (hf : t.fault = s.fault) (hp : t.pending = s.pending) : t.fsm = s.fsm := by
  simp only [State.fsm, hf, hp]

/-! ## The pending slot and the latch under the host's commands -/

@[simp] theorem releaseKey_pending (k : KeyIx) (s : State) : (releaseKey k s).pending = none := by
  unfold releaseKey
  split
  · assumption
  · rfl

/-- What does not execute an instruction, release a key or reset the block leaves the latch and the pending slot. -/
theorem perform_keeps_fault_and_pending
    (hexec : (s.fault ≠ none ∨ s.pending ≠ none) ∨ c ≠ .advance ∧ c ≠ .stepBack)
    (hreset : c ≠ .reset) (hrelease : ∀ k, c ≠ .release k) (h : perform c s = .next t) :
    t.fault = s.fault ∧ t.pending = s.pending := by
  cases c with
  | advance =>
    have hheld : s.fault ≠ none ∨ s.pending ≠ none := hexec.resolve_right (by simp)
    cases (advance_of_faulted_or_waiting hheld).symm.trans h
    exact ⟨rfl, rfl⟩
  | stepBack =>
    have hheld : s.fault ≠ none ∨ s.pending ≠ none := hexec.resolve_right (by simp)
    by_cases hf : s.fault = none
    · cases (stepBack_of_waiting hf (hheld.resolve_left (not_not_intro hf))).symm.trans h
      exact ⟨rfl, rfl⟩
    · cases (stepBack_of_faulted hf).symm.trans h
      exact ⟨rfl, rfl⟩
  | tickTimers =>
    cases h
    rw [tickTimers_eq]
    exact ⟨rfl, rfl⟩
  | load bytes =>
    cases h
    unfold loadImage
    split <;> exact ⟨rfl, rfl⟩
  | reset => exact absurd rfl hreset
  | release k => exact absurd rfl (hrelease k)
  | press _ | isDown _ | snapshot | getScreen | fetchAt _ | isPaused | pauseOrResume | readRegisters | readFault
  | readPending | readSound => cases h; exact ⟨rfl, rfl⟩

theorem perform_keeps_fsm
    (hexec : (s.fault ≠ none ∨ s.pending ≠ none) ∨ c ≠ .advance ∧ c ≠ .stepBack)
    (hreset : c ≠ .reset) (hrelease : ∀ k, c ≠ .release k) (h : perform c s = .next t) : t.fsm = s.fsm := by
  obtain ⟨hf, hp⟩ := perform_keeps_fault_and_pending hexec hreset hrelease h
  exact State.fsm_congr hf hp

/-- A release ends a wait, and leaves a fault. -/
theorem fsm_releaseKey_eq_running (k : KeyIx) (hf : s.fault = none) : (releaseKey k s).fsm = .running :=
  State.fsm_eq_running_iff.mpr ⟨(releaseKey_fault k s).trans hf, releaseKey_pending k s⟩

theorem fsm_resetBlock (s : State) : (resetBlock s).fsm = .running := rfl

/-! ## The timers under the host's commands -/

/-- What neither executes an instruction nor resets the block lowers the timers by one with floor 0 if it is a tick, and
leaves them otherwise. -/
theorem perform_timers (hadv : c ≠ .advance) (hback : c ≠ .stepBack) (hreset : c ≠ .reset)
    (h : perform c s = .next t) :
    t.DT.toNat = s.DT.toNat - (if c = .tickTimers then 1 else 0) ∧
    t.ST.toNat = s.ST.toNat - (if c = .tickTimers then 1 else 0) := by
  cases c with
  | advance => exact absurd rfl hadv
  | stepBack => exact absurd rfl hback
  | reset => exact absurd rfl hreset
  | tickTimers =>
    cases h
    rw [tickTimers_eq]
    exact ⟨countDown_toNat s.DT, countDown_toNat s.ST⟩
  | release k =>
    cases h
    unfold releaseKey
    split <;> exact ⟨rfl, rfl⟩
  | load bytes =>
    cases h
    unfold loadImage
    split <;> exact ⟨rfl, rfl⟩
  | press _ | isDown _ | snapshot | getScreen | fetchAt _ | isPaused | pauseOrResume | readRegisters | readFault
  | readPending | readSound => cases h; exact ⟨rfl, rfl⟩

/-! ## Runs under a host schedule -/

/-- What holds at the start and is carried over by each of the first m entries holds after them. -/
theorem runUnder_induction {h : HostSchedule} {m : Nat} {P : Nat → State → Prop} (hzero : P 0 s)
    (hsucc : ∀ i, i < m → ∀ u v, P i u → u.issue (h i) = .next v → P (i + 1) v)
    (hrun : runUnder h m s = .next t) : P m t := by
  induction m generalizing t with
  | zero =>
    cases hrun
    exact hzero
  | succ m ih =>
    obtain ⟨u, hu⟩ := runUnder_next h m s
    have hP : P m u := ih (fun i hi => hsucc i (hi.trans (Nat.lt_succ_self m))) hu
    exact hsucc m (Nat.lt_succ_self m) u t hP ((runUnder_succ_eq_issue hu).symm.trans hrun)

/-- How many of the first m entries of a schedule are ticks. -/
def HostSchedule.ticks (h : HostSchedule) (m : Nat) : Nat :=
  (List.range m).countP (fun i => h i = some .tickTimers)

theorem HostSchedule.ticks_succ (h : HostSchedule) (m : Nat) :
    h.ticks (m + 1) = h.ticks m + if h m = some .tickTimers then 1 else 0 := by
  simp [HostSchedule.ticks, List.range_succ]

/-- A wait outlives every entry that is no release and no reset. -/
theorem runUnder_keeps_waiting {h : HostSchedule} {m : Nat} {r : RegIx} (hp : s.pending = some r)
    (hquiet : ∀ i, i < m → h i ≠ some .reset ∧ ∀ k, h i ≠ some (.release k))
    (hrun : runUnder h m s = .next t) : t.pending = some r := by
  refine runUnder_induction (P := fun _ u => u.pending = some r) hp (fun i hi u v hu hv => ?_) hrun
  obtain ⟨hreset, hrelease⟩ := hquiet i hi
  cases hc : h i with
  | none =>
    rw [hc] at hv
    cases hv
    exact hu
  | some c =>
    rw [hc] at hv hreset hrelease
    have hheld : u.pending ≠ none := by simp [hu]
    have hkeep := perform_keeps_fault_and_pending (.inl (.inr hheld)) (fun e => hreset (congrArg some e))
      (fun k e => hrelease k (congrArg some e)) hv
    exact hkeep.2.trans hu

/-- Where no entry can write a timer, the timers go down by the ticks issued, with floor 0. -/
theorem runUnder_timers {h : HostSchedule} {m : Nat}
    (hquiet : ∀ i, i < m → h i ≠ some .advance ∧ h i ≠ some .stepBack ∧ h i ≠ some .reset)
    (hrun : runUnder h m s = .next t) :
    t.DT.toNat = s.DT.toNat - h.ticks m ∧ t.ST.toNat = s.ST.toNat - h.ticks m := by
  refine runUnder_induction
    (P := fun i u => u.DT.toNat = s.DT.toNat - h.ticks i ∧ u.ST.toNat = s.ST.toNat - h.ticks i)
    ⟨rfl, rfl⟩ (fun i hi u v hu hv => ?_) hrun
  obtain ⟨hadv, hback, hreset⟩ := hquiet i hi
  obtain ⟨hDT, hST⟩ := hu
  rw [h.ticks_succ]
  cases hc : h i with
  | none =>
    rw [hc] at hv
    cases hv
    exact ⟨hDT, hST⟩
  | some c =>
    rw [hc] at hv hadv hback hreset
    obtain ⟨hDT', hST'⟩ := perform_timers (fun e => hadv (congrArg some e)) (fun e => hback (congrArg some e))
      (fun e => hreset (congrArg some e)) hv
    simp only [hDT', hST', hDT, hST, Nat.sub_sub, Option.some_inj, and_self]

end Sys2Proof.Machine

namespace Sys2Proof.Proofs
open Machine

/-- Settles O8: the entry that releases a key clears the pending slot; the other two clauses are inductions along the
run. -/
theorem progressDependsOnTheHost : Obligations.ProgressDependsOnTheHost := by
  intro h s m
  refine ⟨fun k hk => ?released, fun t r hp hquiet hrun => ?waiting, fun t hquiet hrun => ?timers⟩
  case released =>
    obtain ⟨u, hu⟩ := runUnder_next h m s
    refine ⟨releaseKey k u, ?_, releaseKey_pending k u⟩
    rw [runUnder_succ_eq_issue hu, hk]
    rfl
  case waiting => exact runUnder_keeps_waiting hp hquiet hrun
  case timers => exact runUnder_timers hquiet hrun

/-- Settles O12: a reset and a release of an unfaulted block give Running, advance and step_back do nothing to a held
block, and no other command touches the latch or the pending slot. -/
theorem fsmTransitions : Obligations.FsmTransitions := by
  intro s t c h
  refine ⟨fun hrun hleft => ?running, fun r hwait => ?awaiting, fun r hwait hrelease => ?released,
    fun hfaulted => ?faulted, fun hreset => ?reset⟩
  case running =>
    obtain ⟨hf, -⟩ := State.fsm_eq_running_iff.mp hrun
    cases c with
    | advance => exact .inl rfl
    | stepBack => exact .inr rfl
    | reset =>
      cases h
      exact absurd (fsm_resetBlock s) hleft
    | release k =>
      cases h
      exact absurd (fsm_releaseKey_eq_running k hf) hleft
    | _ => exact absurd ((perform_keeps_fsm (.inr (by simp)) (by simp) (by simp) h).trans hrun) hleft
  case awaiting =>
    obtain ⟨hf, hp⟩ := State.fsm_eq_awaitingKey_iff.mp hwait
    have hheld : s.pending ≠ none := by simp [hp]
    cases c with
    | reset =>
      cases h
      exact .inr ⟨fsm_resetBlock s, .inr rfl⟩
    | release k =>
      cases h
      exact .inr ⟨fsm_releaseKey_eq_running k hf, .inl ⟨k, rfl⟩⟩
    | _ => exact .inl ((perform_keeps_fsm (.inl (.inr hheld)) (by simp) (by simp) h).trans hwait)
  case released =>
    obtain ⟨hf, -⟩ := State.fsm_eq_awaitingKey_iff.mp hwait
    obtain ⟨k, rfl⟩ := hrelease
    cases h
    exact fsm_releaseKey_eq_running k hf
  case faulted =>
    by_cases hc : c = .reset
    · subst hc
      cases h
      exact .inr ⟨fsm_resetBlock s, rfl⟩
    · obtain ⟨r, hr⟩ := Option.ne_none_iff_exists'.mp (State.fsm_eq_faulted_iff.mp hfaulted)
      exact .inl (State.fsm_eq_faulted_iff.mpr (by simp [perform_keeps_latched hr hc h]))
  case reset =>
    subst hreset
    cases h
    exact fsm_resetBlock s

/-- Settles O15: an instruction that does not raise leaves the latch empty, and a raise is of the instruction's kind. -/
theorem instructionsRaiseOnlyTheirOwnFault : Obligations.InstructionsRaiseOnlyTheirOwnFault := by
  intro i s t r hf h hr
  rcases exec_raises_or_keeps_latch i s with ⟨kind, info, hk, e⟩ | ⟨t', e, hkeep⟩
  · cases (e.trans (raise_of_none i kind info hf)).symm.trans h
    cases hr
    exact hk
  · cases e.symm.trans h
    simp [hkeep, hf] at hr

end Sys2Proof.Proofs
end

section
/-! SUPPORT. Memory rebuilt from an image read address by address (20_memory.md R41), the two outcomes of load
(70_reset_and_hazards.md R182, R183), and the initial values of the registers, the screen and the keys (R180, R181). -/

namespace Sys2Proof.Machine

/-! ## Reads of memory rebuilt from an image -/

section Rebuilt

variable {t : State} {font : Font} {bytes : List Byte}
  (hfont : t.font = font) (hmem : t.mem = Memory.ofImage font Config.progBase bytes)
include hfont hmem

/-- Outside the image, rebuilt memory reads as the reset contents. -/
theorem State.readByte_background_of_rebuilt (a : Nat) (hout : a < 0x200 ∨ 0x200 + bytes.length ≤ a) :
    t.readByte a = Memory.background font a := by
  rw [State.readByte, hfont, hmem, Memory.read_ofImage, dif_neg (by simp only [Config.progBase]; omega)]

/-- The font lies below the program base, so no image covers it. -/
theorem State.readByte_font_of_rebuilt (a : Nat) (h : a < 80) : t.readByte a = font[a] := by
  rw [State.readByte_background_of_rebuilt hfont hmem a (.inl (by omega)), Memory.background_font font h]

theorem State.readByte_image_of_rebuilt (k : Nat) (h : k < bytes.length) : t.readByte (0x200 + k) = bytes[k] := by
  rw [State.readByte, hfont, hmem, Memory.read_ofImage, dif_pos (by simp only [Config.progBase]; omega)]
  simp only [Config.progBase, Nat.add_sub_cancel_left]

theorem State.readByte_zero_of_rebuilt (a : Nat) (h : 80 ≤ a) (hout : a < 0x200 ∨ 0x200 + bytes.length ≤ a) :
    t.readByte a = 0 := by
  rw [State.readByte_background_of_rebuilt hfont hmem a hout, Memory.background_zero font h]

end Rebuilt

/-! ## The two outcomes of load -/

theorem loadImage_of_fits {bytes : List Byte} (h : bytes.length ≤ 3584) (s : State) :
    loadImage bytes s =
      { s with mem := Memory.ofImage s.font Config.progBase bytes, image := bytes }.emit .loadOk :=
  if_pos h

theorem loadImage_of_too_long {bytes : List Byte} (h : 3584 < bytes.length) (s : State) :
    loadImage bytes s = s.emit (.loadError bytes.length) :=
  if_neg (Nat.not_le_of_lt h)

theorem frame_loadImage (bytes : List Byte) (s : State) :
    Frame [.memory, .image, .outputs] s (loadImage bytes s) := by
  intro c hc
  unfold loadImage
  split <;> cases c with
  | memory | image | outputs => simp at hc
  | regs | screen | keys => exact fun _ => by intros; rfl
  | index | pc | stack | delay | sound | pending | paused | fault | rng | font | schedule | hostTail => rfl

/-! ## The initial values -/

@[simp] theorem State.reg_reset (k : RegIx) : State.reset.reg k = 0 := Vector.getElem_replicate k.isLt

@[simp] theorem State.key_reset (k : KeyIx) : State.reset.key k = false := Vector.getElem_replicate k.isLt

@[simp] theorem State.pixel_reset (c : Fin 64) (r : Fin 32) : State.reset.pixel c r = false := blankScreen_at c r

/-- What is not the block's own, and the image, a reset keeps. -/
theorem frame_resetBlock (s : State) :
    Frame [.memory, .regs, .index, .pc, .stack, .delay, .sound, .screen, .keys, .pending, .paused, .fault] s
      (resetBlock s) := by
  intro c hc
  cases c with
  | image | rng | font | schedule | hostTail | outputs => rfl
  | _ => simp at hc

/-- On the constructed block, load leaves nothing for a reset to restore. -/
theorem resetBlock_loadImage_reset {P : List Byte} (h : P.length ≤ 3584) :
    resetBlock (loadImage P State.reset) = loadImage P State.reset := by
  rw [loadImage_of_fits h]
  rfl

end Sys2Proof.Machine

namespace Sys2Proof.Proofs
open Machine

/-- Settles O54: an image that fits rebuilds memory, whose bytes are read by the three kinds of address; a longer one
is only reported. -/
theorem loadRebuildsMemoryOrReports : Obligations.LoadRebuildsMemoryOrReports := by
  intro s bytes
  refine ⟨fun hfits => ?fits, fun hlong => ?tooLong⟩
  case fits =>
    have hload := loadImage_of_fits hfits s
    have hfont : (loadImage bytes s).font = s.font := by rw [hload]; rfl
    have hmem : (loadImage bytes s).mem = Memory.ofImage s.font Config.progBase bytes := by rw [hload]; rfl
    exact ⟨loadImage bytes s, rfl, State.readByte_font_of_rebuilt hfont hmem,
      State.readByte_image_of_rebuilt hfont hmem, State.readByte_zero_of_rebuilt hfont hmem,
      by rw [hload]; rfl, by rw [hload]; rfl, frame_loadImage bytes s⟩
  case tooLong => rw [perform, loadImage_of_too_long hlong]

/-- Settles O55: memory is rebuilt from the kept image, and every other component of the block is that of the
constructed block. -/
theorem resetRestoresInitialValues : Obligations.ResetRestoresInitialValues := fun s =>
  ⟨resetBlock s, rfl, State.readByte_font_of_rebuilt rfl rfl, State.readByte_image_of_rebuilt rfl rfl,
    State.readByte_zero_of_rebuilt rfl rfl, State.reg_reset, rfl, rfl, rfl, rfl, rfl, State.pixel_reset,
    State.key_reset, rfl, rfl, rfl, frame_resetBlock s⟩

/-- Settles O57: load on the constructed block is a fixed point of reset, and a reset leaves the block Running. -/
theorem launchStateIsLoadThenReset : Obligations.LaunchStateIsLoadThenReset := by
  intro P hP
  have hfix := resetBlock_loadImage_reset hP
  exact ⟨loadImage P State.reset, rfl, congrArg _ hfix, hfix ▸ fsm_resetBlock _, hfix ▸ rfl⟩

/-- Settles O56: the memory of the constructed block is that of the empty image. -/
theorem constructionState : Obligations.ConstructionState :=
  ⟨State.readByte_font_of_rebuilt (bytes := []) rfl rfl,
    fun a h => State.readByte_zero_of_rebuilt (bytes := []) rfl rfl a h (Nat.lt_or_ge a 0x200),
    State.reg_reset, rfl, rfl, rfl, rfl, rfl, State.pixel_reset, State.key_reset, rfl, rfl, rfl, rfl⟩

/-- Settles O58: memory and stack are empty, and nothing is latched. -/
theorem resetMeetsTheInvariant : Obligations.ResetMeetsTheInvariant :=
  ⟨Memory.reset_wf, Nat.zero_le 16, Nat.zero_le 3584, fun _ => rfl, rfl⟩

end Sys2Proof.Proofs
end
